-- ==== Sys2Proof/Word.lean ====
section
/-! DEFINITION. The three bit widths of the machine: an 8-bit cell or channel byte (R15, R36), the 3-bit
instruction word OP3 (R59) and the 21-bit character code of the output channel (R9, R111). -/

namespace Sys2Proof

/-- A tape cell's value, or a byte of the input channel: 8 bits, unsigned (10_state.md R15, 43_io.md R113). -/
abbrev Byte := BitVec 8

/-- An entry of the instruction sequence: the opcode index in bits `[2:0]`, nothing else (30_encoding.md R59). -/
abbrev OpWord := BitVec 3

/-- A character of the output channel, a Unicode scalar value in 21 bits (43_io.md R111). -/
abbrev CharCode := BitVec 21

end Sys2Proof
end

