-- ==== Sys2Proof/Config.lean ====
section
/-! DEFINITION. The one value the spec leaves unspecified (U1), as a constant with no body: nothing in
Lean can say what it is, so a claim holds whatever it is. -/

namespace Sys2Proof.Config

/-- What the program counter holds after an unmatched-jump fault: any value (60_exceptions.md R143, U1, D7).
DESIGN CHOICE, safe (log 5): it may depend on how many values were drawn before, on the program, on the
program counter and data pointer before the step, and on the tape; it does not depend on the debug flag,
which has "no effect on semantics" (10_state.md R17), nor on the channels, which a jump never touches. -/
opaque unspecifiedPc (draw : Nat) (imem : List OpWord) (pc tapeLen dp : Nat) (tape : List Host.Cell) : Nat

end Sys2Proof.Config
end

