-- ==== Sys2Proof/Syntax.lean ====
section
/-! DEFINITION. The closed set of eight opcodes (R50), none with an operand (R60), and the two
characters a token is built from (R6). -/

namespace Sys2Proof

/-- "A closed enumeration of 8 variants" (30_encoding.md R50), in the order of the opcode table.
No instruction has an operand field, an immediate or a mode (R60). -/
inductive Instr where
  | moveRight
  | moveLeft
  | increment
  | decrement
  | jumpForward
  | jumpBack
  | output
  | input
  deriving DecidableEq, Repr

/-- MARKER and TERMINATOR, the two parameters of the token encoding (00_scope.md R6). Characters are
Unicode scalar values and are equal when their scalar values are (30_encoding.md R51, D16). -/
structure TokenParams where
  marker : Char
  terminator : Char
  deriving DecidableEq, Repr

end Sys2Proof
end

