-- ==== Sys2Proof/Machine/Params.lean ====
section
/-! DEFINITION. The numbers and characters the spec fixes as constants, and the values the model gives
to the parameters the spec leaves to the implementation. -/

namespace Sys2Proof.Machine

/-- `MIN_LEN`, the least token length (00_scope.md R7). -/
def minTokenLen : Nat := 3

/-- `N_OPCODES` (00_scope.md R7). -/
def opcodeCount : Nat := 8

/-- The ASCII whitespace that separates tokens: tab, line feed, form feed, carriage return and space,
and no other character (30_encoding.md R63; the set is the spec's decision D13, log 15). -/
def asciiWhitespace : List Char :=
  [Char.ofNat 0x09, Char.ofNat 0x0A, Char.ofNat 0x0C, Char.ofNat 0x0D, Char.ofNat 0x20]

/-- Is the character one of the five that separate tokens (30_encoding.md R63)? -/
def isAsciiSpace (c : Char) : Bool := asciiWhitespace.contains c

/-- The default the spec takes for MARKER and TERMINATOR, U+0070 and U+0073 (00_scope.md R6).
DEDUCED, unsafe: the spec infers it from the repository's name (D1, log 2). -/
def defaultTokens : TokenParams := { marker := 'p', terminator := 's' }

/-- The Unicode replacement character U+FFFD (43_io.md R110). -/
def replacementChar : CharCode := 0xFFFD#21

/-- The tape length of `State.reset`. DESIGN CHOICE, unsafe: TAPE_LEN is a parameter, any number from 1
up, and the spec names no value (00_scope.md R5, log 1). -/
def resetTapeLen : Nat := 256

end Sys2Proof.Machine
end

