-- ==== Sys2Proof/WellFormed.lean ====
section
/-! DEFINITION. What must hold of the data a run is made from: the instruction (nothing to check: no
operand exists), the token characters (R6), the tape length (R5). -/

namespace Sys2Proof

/-- Every instruction is well formed: it is one of the eight and has no field that could hold a bad
value (30_encoding.md R60, R61). -/
def Instr.wellFormed (_ : Instr) : Bool := true

/-- The constraint on MARKER and TERMINATOR: distinct, and neither an ASCII whitespace character
(00_scope.md R6, 30_encoding.md R63). -/
def TokenParams.wellFormed (P : TokenParams) : Bool :=
  P.marker != P.terminator && !Machine.isAsciiSpace P.marker && !Machine.isAsciiSpace P.terminator

/-- `TAPE_LEN ≥ 1` (00_scope.md R5). -/
def tapeLenOk (n : Nat) : Bool := decide (1 ≤ n)

end Sys2Proof
end

