-- ==== Sys2Proof/Decode.lean ====
section
/-! DEFINITION. The two encodings of an instruction (30_encoding.md): the 3-bit opcode index the engine
fetches and the token a program is written in; the token decoder, the loader around it and their inverses;
the UTF-8 reading of the source text and the UTF-8 form of the output. -/

namespace Sys2Proof

/-! ## The opcode index -/

/-- The fixed index → opcode table (30_encoding.md R50, R55): total on 0..7, undefined elsewhere. -/
def opcodeOfIndex : Nat → Option Instr
  | 0 => some .moveRight
  | 1 => some .moveLeft
  | 2 => some .increment
  | 3 => some .decrement
  | 4 => some .jumpForward
  | 5 => some .jumpBack
  | 6 => some .output
  | 7 => some .input
  | _ => none

/-- The instruction a 3-bit entry holds. All 8 values are instructions (30_encoding.md R59, R61), so the
choice is total (R73); the table is that of R50. -/
def decodeWord (w : OpWord) : Instr :=
  match w.toNat with
  | 0 => .moveRight
  | 1 => .moveLeft
  | 2 => .increment
  | 3 => .decrement
  | 4 => .jumpForward
  | 5 => .jumpBack
  | 6 => .output
  | _ => .input

/-- The 3-bit entry of an instruction (30_encoding.md R50, the column "binary"). -/
def encode : Instr → OpWord
  | .moveRight => 0b000#3
  | .moveLeft => 0b001#3
  | .increment => 0b010#3
  | .decrement => 0b011#3
  | .jumpForward => 0b100#3
  | .jumpBack => 0b101#3
  | .output => 0b110#3
  | .input => 0b111#3

/-- The entry that `nbits` bits of value `w` are stored as: an entry has bits `[2:0]` and nothing else
(30_encoding.md R59), so a wider container's upper bits have no place in it (log 11). -/
def entryOfBits (nbits w : Nat) : OpWord := BitVec.ofNat 3 (w % 2 ^ nbits)

/-- The instruction read from the bits of an opcode-table row. -/
def decodeTableWord (nbits w : Nat) : Option Instr := some (decodeWord (entryOfBits nbits w))

/-! ## The token decoder -/

/-- The decoder's one failure, without payload: `Err`, the source's `DecodeFailure`
(30_encoding.md R57, 60_exceptions.md R142). -/
inductive DecodeError where
  | decodeFailure
  deriving DecidableEq, Repr

/-- The character demanded at a position: MARKER at even positions, TERMINATOR at odd ones
(30_encoding.md R52). -/
def TokenParams.charAt (P : TokenParams) (position : Nat) : Char :=
  if position % 2 = 0 then P.marker else P.terminator

/-- Does every character from `position` on stand where R52 demands it? -/
def alternatesFrom (P : TokenParams) (position : Nat) : List Char → Bool
  | [] => true
  | c :: rest => c == P.charAt position && alternatesFrom P (position + 1) rest

/-- `DecodeToken` (30_encoding.md R58): total on every sequence of characters. -/
def decodeToken (P : TokenParams) (token : List Char) : Except DecodeError Instr :=
  if alternatesFrom P 0 token = false then .error .decodeFailure
  else if token.length < Machine.minTokenLen then .error .decodeFailure
  else
    match opcodeOfIndex (token.length - Machine.minTokenLen) with
    | some i => .ok i
    | none => .error .decodeFailure

/-- The well-formed token of a given length: the one that alternates from MARKER (30_encoding.md R52). -/
def alternating (P : TokenParams) (length : Nat) : List Char := (List.range length).map P.charAt

/-- `TokenOf` (30_encoding.md R66): the well-formed token of length index + 3. -/
def tokenOf (P : TokenParams) (i : Instr) : List Char :=
  alternating P ((encode i).toNat + Machine.minTokenLen)

/-! ## The loader -/

/-- Splits off tokens; `word` holds the characters of the token being read, last first. -/
def splitFrom (word : List Char) : List Char → List (List Char)
  | [] => if word.isEmpty then [] else [word.reverse]
  | c :: rest =>
    if Machine.isAsciiSpace c then
      if word.isEmpty then splitFrom [] rest else word.reverse :: splitFrom [] rest
    else splitFrom (c :: word) rest

/-- The tokens of a source text: its maximal runs of non-whitespace characters, in order
(30_encoding.md R63). -/
def splitTokens (text : List Char) : List (List Char) := splitFrom [] text

/-- The entry a token contributes to the program: none when it fails to decode (30_encoding.md R64). -/
def entryOfToken (P : TokenParams) (token : List Char) : Option OpWord :=
  (decodeToken P token).toOption.map encode

/-- `Load` (30_encoding.md R64): the entries of the tokens that decode, in source order, gaps closed up;
the others are dropped silently. -/
def load (P : TokenParams) (text : List Char) : List OpWord :=
  (splitTokens text).filterMap (entryOfToken P)

/-! ## UTF-8 -/

/-- Reads UTF-8. `need` continuation bytes are still to come for the scalar value whose bits so far are
`acc`; a value below `least` would have had a shorter form. PRESUMED, unsafe: the spec says "UTF-8 text"
and refuses text that is not (30_encoding.md R62, D21); what UTF-8 is comes from the standard (log 12). -/
def utf8From (need acc least : Nat) : List Byte → Option (List Char)
  | [] => if need = 0 then some [] else none
  | b :: rest =>
    let n := b.toNat
    match need with
    | 0 =>
      if n < 0x80 then (utf8From 0 0 0 rest).map (Char.ofNat n :: ·)
      else if n < 0xC0 then none
      else if n < 0xE0 then utf8From 1 (n - 0xC0) 0x80 rest
      else if n < 0xF0 then utf8From 2 (n - 0xE0) 0x800 rest
      else if n < 0xF8 then utf8From 3 (n - 0xF0) 0x10000 rest
      else none
    | more + 1 =>
      if 0x80 ≤ n ∧ n < 0xC0 then
        let value := acc * 64 + (n - 0x80)
        if more = 0 then
          if least ≤ value ∧ value.isValidChar then
            (utf8From 0 0 0 rest).map (Char.ofNat value :: ·)
          else none
        else utf8From more value least rest
      else none

/-- The characters of a UTF-8 source text, or none when the bytes are not UTF-8 (30_encoding.md R62). -/
def utf8Decode (bytes : List Byte) : Option (List Char) := utf8From 0 0 0 bytes

/-- The bytes of one output character when a host serialises the channel as UTF-8 (43_io.md R112). The
channel carries `0..127` and U+FFFD only (R111), so these two forms are all there are. -/
def utf8OfChar (c : CharCode) : List Byte :=
  if c.toNat ≤ 127 then [c.setWidth 8] else [0xEF#8, 0xBF#8, 0xBD#8]

/-- The UTF-8 bytes behind an output history (43_io.md R112); host side, outside the engine. -/
def utf8OfOutput (out : List CharCode) : List Byte := out.flatMap utf8OfChar

end Sys2Proof
end

