-- ==== Sys2Proof/Machine/State.lean ====
section
/-! DEFINITION. The whole state of a run (10_state.md R10), the reasons the model stops, and the state
after reset (70_reset_and_hazards.md R170). -/

namespace Sys2Proof.Machine

/-- The fault latch, a 2-bit register (10_state.md R18); its numeric codes are `Status.code`. -/
inductive Status where
  | running
  | faultUnmatchedForward
  | faultUnmatchedBack
  | faultInputExhausted
  deriving DecidableEq, Repr

/-- Why the model stops with a fault. -/
inductive Fault where
  /-- The data pointer names no cell of the tape: no such address exists (20_memory.md R31) and the spec
  states its rules only for a pointer in range (10_state.md R16). Raised by all eight instructions; no
  state that meets the invariant reaches it. Safe (log 8). -/
  | noSuchCell (address : Nat)
  deriving DecidableEq, Repr

/-- Why the model refuses. -/
inductive Refusal where
  /-- An instruction without a meaning yet, by its mnemonic; raised by no arm of `exec`. Safe. -/
  | notModelled (mnemonic : String)
  /-- `Construct(0, imem)`: "no engine is created and no step can be taken" (70_reset_and_hazards.md R172,
  D5). Raised by `construct` and by a step of a state whose tape has no cell. Safe (log 9). -/
  | zeroLengthTape
  /-- Source text that is not UTF-8, refused before loading (30_encoding.md R62, D21). Raised by
  `loadSource`. Safe (log 12). -/
  | sourceNotUtf8
  deriving DecidableEq, Repr

/-- The state of a run: the engine's Machine State with the spec's fault latch, the parameters of the run
that a step reads (`imem`, `tapeLen`, `input`, which no step writes: R21, log 3), the two channels, the
narration side channel, and the model's own count of unspecified values drawn. -/
structure State where
  /-- The instruction sequence, `INSTR_COUNT` 3-bit entries (R12, R59). -/
  imem : List OpWord
  /-- The program counter, an index into `imem` (R13). -/
  pc : Nat
  /-- `TAPE_LEN` (R5). -/
  tapeLen : Nat
  /-- The data pointer (R14). -/
  dp : Nat
  /-- The tape (R15): the cells that do not hold 0, addresses strictly rising (`Memory.wf`). -/
  tape : List Host.Cell
  /-- The debug flag (R17). -/
  debug : Bool
  /-- The fault latch (R18). -/
  status : Status
  /-- The bytes the host supplies for this run (R114). -/
  input : List Byte
  /-- How many of them successful Input steps have consumed (R20, R114). -/
  inpos : Nat
  /-- The characters emitted so far, oldest first (R20, R111). -/
  output : List CharCode
  /-- The narration events emitted so far, oldest first (R17, log 10). -/
  narration : List Instr
  /-- The model's own: how many unspecified values have been drawn (U1, log 5, log 6). -/
  draws : Nat
  deriving DecidableEq, Repr

/-- What `Construct` leaves (70_reset_and_hazards.md R170): counter and pointer 0, every cell 0, debug off,
status RUNNING, nothing consumed, nothing emitted. -/
def State.fresh (tapeLen : Nat) (imem : List OpWord) : State :=
  { imem := imem, pc := 0, tapeLen := tapeLen, dp := 0, tape := [], debug := false, status := .running,
    input := [], inpos := 0, output := [], narration := [], draws := 0 }

/-- The machine right after reset with nothing loaded: reset is construction (R170), here over the empty
program (log 4) and a tape of `resetTapeLen` cells (log 1). -/
def State.reset : State := State.fresh resetTapeLen []

end Sys2Proof.Machine
end

