-- ==== Sys2Proof/Machine/Ops.lean ====
section
/-! DEFINITION. The named operations on the state: the tape's cells, the two channels, the program counter
advance, the narration, and what each failure leaves behind (60_exceptions.md). -/

namespace Sys2Proof.Machine

/-! ## Memory: a sparse list of cells -/

/-- What an address that is not listed reads as: the tape's reset content (10_state.md R15). -/
def Memory.unlisted : Byte := 0#8

/-- The value at an address. -/
def Memory.read : List Host.Cell → Nat → Byte
  | [], _ => Memory.unlisted
  | (a, v) :: rest, x => if a = x then v else Memory.read rest x

/-- Store a value: addresses stay strictly rising, and an entry that would equal `unlisted` is not kept. -/
def Memory.write : List Host.Cell → Nat → Byte → List Host.Cell
  | [], x, v => if v = Memory.unlisted then [] else [(x, v)]
  | (a, w) :: rest, x, v =>
    if x < a then
      if v = Memory.unlisted then (a, w) :: rest else (x, v) :: (a, w) :: rest
    else if x = a then
      if v = Memory.unlisted then rest else (x, v) :: rest
    else (a, w) :: Memory.write rest x v

/-- The canonical form: addresses strictly rising, no entry equal to `unlisted`. -/
def Memory.wf : List Host.Cell → Bool
  | [] => true
  | (a, v) :: rest => v != Memory.unlisted && rest.all (fun c => decide (a < c.1)) && Memory.wf rest

/-! ## The instruction sequence -/

/-- The program as instructions, entry by entry. -/
def State.program (s : State) : List Instr := s.imem.map decodeWord

/-- `INSTR_COUNT` (00_scope.md R8). -/
def State.instrCount (s : State) : Nat := s.imem.length

/-- `is_done()`: true iff program counter ≥ instruction count (40_step_cycle.md R76). -/
def State.isDone (s : State) : Bool := decide (s.instrCount ≤ s.pc)

/-- Fetch: the instruction at the program counter, none exactly when the machine is done
(40_step_cycle.md R72: a fetch cannot fail otherwise). -/
def State.fetch (s : State) : Option Instr := s.imem[s.pc]?.map decodeWord

/-- A sequence with the entry at an index replaced, lengthened by zero entries when it is too short. Not an
operation of the machine, which cannot write `imem` (20_memory.md R40): loading from outside (log 4). -/
def placeEntry (w : OpWord) : Nat → List OpWord → List OpWord
  | 0, [] => [w]
  | 0, _ :: rest => w :: rest
  | n + 1, [] => 0#3 :: placeEntry w n []
  | n + 1, x :: rest => x :: placeEntry w n rest

/-- The state whose next step fetches and runs the entry `w`: placed at the program counter, no fault
latched (log 4). -/
def State.withEntryAtPc (s : State) (w : OpWord) : State :=
  { s with imem := placeEntry w s.pc s.imem, status := .running }

/-! ## The current cell -/

/-- The value of the current cell, `MemRead(dp, 1)` (20_memory.md R33). -/
def State.cell (s : State) : Byte := Memory.read s.tape s.dp

/-- `MemWrite(dp, 1, v)` (20_memory.md R33): the whole current cell is replaced. -/
def State.setCell (v : Byte) (s : State) : State := { s with tape := Memory.write s.tape s.dp v }

/-- Go on only where the data pointer names a cell; an address outside `[0, TAPE_LEN)` does not exist
(20_memory.md R31; safe, log 8). -/
def State.onTape (s : State) (go : Host.Outcome State Fault Refusal) : Host.Outcome State Fault Refusal :=
  if s.dp < s.tapeLen then go else .fault (.noSuchCell s.dp)

/-! ## Pointer and counter -/

/-- Write the data pointer. -/
def State.setDp (n : Nat) (s : State) : State := { s with dp := n }

/-- Write the program counter. -/
def State.setPc (n : Nat) (s : State) : State := { s with pc := n }

/-- The common advance after an instruction's effects (40_step_cycle.md R74). -/
def State.advance (s : State) : State := { s with pc := s.pc + 1 }

/-- The narration event of a narrated instruction, emitted after its effects when `debug` is 1
(10_state.md R17). -/
def State.narrate (i : Instr) (s : State) : State :=
  { s with narration := bif s.debug then s.narration ++ [i] else s.narration }

/-! ## Channels -/

/-- `Out(c)`: append to the output channel, which always accepts (43_io.md R111). -/
def State.emit (c : CharCode) (s : State) : State := { s with output := s.output ++ [c] }

/-- The next byte of the input channel, none at its end (43_io.md R114). -/
def State.nextInput (s : State) : Option Byte := s.input[s.inpos]?

/-- `In()` has taken a byte: the position moves on by one (43_io.md R114). -/
def State.consume (s : State) : State := { s with inpos := s.inpos + 1 }

/-! ## Failures (60_exceptions.md) -/

/-- A fault that leaves everything but `status` as it was: `InputExhausted` (60_exceptions.md R146). -/
def State.latch (f : Status) (s : State) : State := { s with status := f }

/-- An unmatched-jump fault (60_exceptions.md R143, R144): `status` is latched, the data pointer, the tape
and the channels stay, and the program counter is unspecified: a free value (U1, log 5). -/
def State.latchUnmatched (f : Status) (s : State) : State :=
  { s with
    status := f
    pc := Config.unspecifiedPc s.draws s.imem s.pc s.tapeLen s.dp s.tape
    draws := s.draws + 1 }

end Sys2Proof.Machine
end

