-- ==== Sys2Proof/Machine/Operands.lean ====
section
/-! DEFINITION. The implicit operands (30_encoding.md R60): the neighbour cells a pointer move selects, the
character an Output emits, and the target a taken jump finds by scanning (44_jumps.md R122, R126). -/

namespace Sys2Proof.Machine

/-- `(dp + 1) mod TAPE_LEN` (41_pointer.md R90). -/
def rightOf (tapeLen dp : Nat) : Nat := (dp + 1) % tapeLen

/-- `dp - 1` if `dp > 0`, else `TAPE_LEN - 1` (41_pointer.md R91). -/
def leftOf (tapeLen dp : Nat) : Nat := if 0 < dp then dp - 1 else tapeLen - 1

/-- The character a cell value is emitted as: itself in `0..127`, else U+FFFD (43_io.md R110). -/
def charOf (v : Byte) : CharCode := if v.toNat ≤ 127 then v.setWidth 21 else replacementChar

/-- The depth-tracked linear scan both jumps share (44_jumps.md R122, R126; "one shared depth-tracked linear
scan parameterized by direction and by target opcode"). The list holds the instructions to examine, each
with its index, in the order of examination; `deeper` raises the depth, `target` matches at depth 0 and
lowers it above. -/
def scan (deeper target : Instr) : Nat → List (Instr × Nat) → Option Nat
  | _, [] => none
  | depth, (i, k) :: rest =>
    if i = deeper then scan deeper target (depth + 1) rest
    else if i = target then
      match depth with
      | 0 => some k
      | d + 1 => scan deeper target d rest
    else scan deeper target depth rest

/-- `ScanForward(p)`: examines `p + 1, p + 2, …, INSTR_COUNT - 1` (44_jumps.md R122). -/
def scanForward (program : List Instr) (p : Nat) : Option Nat :=
  scan .jumpForward .jumpBack 0 (program.zipIdx.drop (p + 1))

/-- `ScanBackward(p)`: examines `p - 1, p - 2, …, 0` (44_jumps.md R126). -/
def scanBackward (program : List Instr) (p : Nat) : Option Nat :=
  scan .jumpBack .jumpForward 0 (program.zipIdx.take p).reverse

end Sys2Proof.Machine
end

