-- ==== Sys2Proof/Machine/Flags.lean ====
section
/-! DEFINITION. There are no flags and no condition codes (10_state.md R19): the only conditions are the two
jumps' tests of the current cell. Beside them, the numeric codes of `status` (R18) and of the results of a
step (60_exceptions.md R140). -/

namespace Sys2Proof.Machine

/-- JumpForward's condition: the whole 8-bit cell is zero (44_jumps.md R120). -/
def State.cellZero (s : State) : Bool := s.cell == 0#8

/-- JumpBack's condition: the cell is nonzero (44_jumps.md R124). -/
def State.cellNonzero (s : State) : Bool := s.cell != 0#8

/-- The 2-bit value of the status register (10_state.md R18). -/
def Status.code : Status → BitVec 2
  | .running => 0#2
  | .faultUnmatchedForward => 1#2
  | .faultUnmatchedBack => 2#2
  | .faultInputExhausted => 3#2

/-- The five results of `step()` (40_step_cycle.md R71). -/
inductive StepResult where
  | ok
  | programAlreadyDone
  | unmatchedJumpForward
  | unmatchedJumpBack
  | inputExhausted
  deriving DecidableEq, Repr

/-- The result's numeric code (60_exceptions.md R140). -/
def StepResult.code : StepResult → Nat
  | .ok => 0
  | .programAlreadyDone => 1
  | .unmatchedJumpForward => 2
  | .unmatchedJumpBack => 3
  | .inputExhausted => 4

/-- The fault a status value records, none while RUNNING (10_state.md R18, 60_exceptions.md R147). -/
def Status.fault? : Status → Option StepResult
  | .running => none
  | .faultUnmatchedForward => some .unmatchedJumpForward
  | .faultUnmatchedBack => some .unmatchedJumpBack
  | .faultInputExhausted => some .inputExhausted

end Sys2Proof.Machine
end

