-- ==== Sys2Proof/Machine/CellArith.lean ====
section
/-! DEFINITION. The cell arithmetic instructions Increment and Decrement (42_cell_arith.md). -/

namespace Sys2Proof.Machine

/-- Increment: `tape[dp] <- (tape[dp] + 1) mod 256` (42_cell_arith.md R100). -/
def execIncrement (s : State) : Host.Outcome State Fault Refusal :=
  s.onTape (.next ((s.setCell (s.cell + 1#8)).advance.narrate .increment))

/-- Decrement: `tape[dp] <- (tape[dp] + 255) mod 256` (42_cell_arith.md R101). -/
def execDecrement (s : State) : Host.Outcome State Fault Refusal :=
  s.onTape (.next ((s.setCell (s.cell + 255#8)).advance.narrate .decrement))

end Sys2Proof.Machine
end

