-- ==== Sys2Proof/Machine/InputOutput.lean ====
section
/-! DEFINITION. The input and output instructions (43_io.md). -/

namespace Sys2Proof.Machine

/-- Output (43_io.md R110): appends one character; not narrated. -/
def execOutput (s : State) : Host.Outcome State Fault Refusal :=
  s.onTape (.next (s.emit (charOf s.cell)).advance)

/-- Input (43_io.md R113): stores the next byte of the channel as it is; at the channel's end the fault
`InputExhausted` is latched and nothing else changes (R115). Not narrated. -/
def execInput (s : State) : Host.Outcome State Fault Refusal :=
  s.onTape
    (match s.nextInput with
    | none => .next (s.latch .faultInputExhausted)
    | some b => .next (s.consume.setCell b).advance)

end Sys2Proof.Machine
end

