-- ==== Sys2Proof/Machine/Jumps.lean ====
section
/-! DEFINITION. The control transfer instructions JumpForward and JumpBack (44_jumps.md). -/

namespace Sys2Proof.Machine

/-- What both jumps do once their condition is known: not taken, fall through; taken with a partner at `j`,
`pc <- j` and then the common advance (44_jumps.md R121, R125); taken without one, the unmatched fault
(R123, R127). -/
def State.jump (s : State) (taken : Bool) (partner : Option Nat) (unmatched : Status) : State :=
  if taken then
    match partner with
    | some j => (s.setPc j).advance
    | none => s.latchUnmatched unmatched
  else s.advance

/-- JumpForward: taken on a zero cell (44_jumps.md R120). -/
def execJumpForward (s : State) : Host.Outcome State Fault Refusal :=
  s.onTape (.next (s.jump s.cellZero (scanForward s.program s.pc) .faultUnmatchedForward))

/-- JumpBack: taken on a nonzero cell (44_jumps.md R124). -/
def execJumpBack (s : State) : Host.Outcome State Fault Refusal :=
  s.onTape (.next (s.jump s.cellNonzero (scanBackward s.program s.pc) .faultUnmatchedBack))

end Sys2Proof.Machine
end

