-- ==== Sys2Proof/Machine/Pointer.lean ====
section
/-! DEFINITION. The pointer instructions MoveRight and MoveLeft (41_pointer.md). -/

namespace Sys2Proof.Machine

/-- MoveRight (41_pointer.md R90). -/
def execMoveRight (s : State) : Host.Outcome State Fault Refusal :=
  s.onTape (.next ((s.setDp (rightOf s.tapeLen s.dp)).advance.narrate .moveRight))

/-- MoveLeft (41_pointer.md R91). -/
def execMoveLeft (s : State) : Host.Outcome State Fault Refusal :=
  s.onTape (.next ((s.setDp (leftOf s.tapeLen s.dp)).advance.narrate .moveLeft))

end Sys2Proof.Machine
end

