-- ==== Sys2Proof/Machine/Cycle.lean ====
section
/-! DEFINITION. One step of the engine as a transition of the state (40_step_cycle.md R72, R77), and the
result code it returns to the host (R71, 60_exceptions.md R140). -/

namespace Sys2Proof.Machine

/-- The step (40_step_cycle.md R72): (1) a latched fault is returned again and nothing changes; (2) at or
past the end, `ProgramAlreadyDone` and nothing changes; (3) fetch, (4) dispatch. The advance and the
narration of (6) stand in each instruction's meaning. No engine exists over a tape of length 0
(70_reset_and_hazards.md R172). -/
def State.cycle (s : State) : Host.Outcome State Fault Refusal :=
  if s.tapeLen = 0 then .refused .zeroLengthTape
  else if s.status ≠ .running then .next s
  else
    match s.fetch with
    | none => .next s
    | some i => exec i s

/-- The result a step returns, read from the states before and after it (60_exceptions.md R140): the fault
when one is latched (R144, R146, R147), else `ProgramAlreadyDone` when the machine was done (R141), else
`Ok`. -/
def StepResult.between (before after : State) : StepResult :=
  match after.status.fault? with
  | some r => r
  | none => if before.isDone then .programAlreadyDone else .ok

/-- The `step()` transaction (60_exceptions.md R154): the next state and the result. -/
def stepTransaction (s : State) : Host.Outcome (State × StepResult) Fault Refusal :=
  match s.cycle with
  | .next t => .next (t, StepResult.between s t)
  | .fault r => .fault r
  | .refused r => .refused r

end Sys2Proof.Machine
end

