-- ==== Sys2Proof/Machine/Step.lean ====
section
/-! DEFINITION. The step the host runs, and the placing of an instruction where it is fetched next. -/

namespace Sys2Proof.Machine

/-- One step of the engine (40_step_cycle.md R70, R72). -/
def step (s : State) : Host.Outcome State Fault Refusal := s.cycle

/-- The state whose next step fetches and runs the instruction of these bits (log 4, log 11). -/
def State.withFetchWord (s : State) (nbits w : Nat) : State := s.withEntryAtPc (entryOfBits nbits w)

end Sys2Proof.Machine
end

