-- ==== Sys2Proof/Machine/Transactions.lean ====
section
/-! DEFINITION. The host's transactions (60_exceptions.md R154), the order of bring-up
(70_reset_and_hazards.md R174) and the host's run loop (40_step_cycle.md R78). -/

namespace Sys2Proof.Machine

/-- `Load(text)` over the bytes of a source file: refused when they are not UTF-8 (30_encoding.md R62, D21),
else the program (R64); a load never fails otherwise. -/
def loadSource (P : TokenParams) (bytes : List Byte) : Host.Outcome (List OpWord) Fault Refusal :=
  match utf8Decode bytes with
  | some text => .next (load P text)
  | none => .refused .sourceNotUtf8

/-- `Construct(TAPE_LEN, imem)`: the reset state, or a refusal when the tape would have no cell
(70_reset_and_hazards.md R170, R172). -/
def construct (tapeLen : Nat) (imem : List OpWord) : Host.Outcome State Fault Refusal :=
  if tapeLen = 0 then .refused .zeroLengthTape else .next (State.fresh tapeLen imem)

/-- `SetDebug(b)`, at any time between steps (60_exceptions.md R154, R155). -/
def State.setDebug (b : Bool) (s : State) : State := { s with debug := b }

/-- The host fixes the input sequence, before the run (60_exceptions.md R154; the host's duty, log 13). -/
def State.supplyInput (bytes : List Byte) (s : State) : State := { s with input := bytes }

/-- Reading the status register: 0..3 (60_exceptions.md R154). -/
def State.readStatus (s : State) : BitVec 2 := s.status.code

/-- Reading the output channel: the characters emitted so far (60_exceptions.md R154). -/
def State.readOutput (s : State) : List CharCode := s.output

/-- The whole bring-up (70_reset_and_hazards.md R174): load, construct, the debug flag, the input. -/
def boot (P : TokenParams) (source : List Byte) (tapeLen : Nat) (debug : Bool) (input : List Byte) :
    Host.Outcome State Fault Refusal :=
  match loadSource P source with
  | .next imem =>
    match construct tapeLen imem with
    | .next s => .next ((s.setDebug debug).supplyInput input)
    | .fault r => .fault r
    | .refused r => .refused r
  | .fault r => .fault r
  | .refused r => .refused r

/-- The host's loop, `while not is_done(): r <- step(); if r ≠ Ok: stop`, cut off after `budget` steps
(40_step_cycle.md R78, 70_reset_and_hazards.md R178): the state it leaves and the number of steps that
returned `Ok`. -/
def hostLoop : Nat → State → Host.Outcome (State × Nat) Fault Refusal
  | 0, s => .next (s, 0)
  | budget + 1, s =>
    if s.isDone then .next (s, 0)
    else
      match stepTransaction s with
      | .next (t, .ok) =>
        match hostLoop budget t with
        | .next (u, n) => .next (u, n + 1)
        | .fault r => .fault r
        | .refused r => .refused r
      | .next (t, _) => .next (t, 0)
      | .fault r => .fault r
      | .refused r => .refused r

end Sys2Proof.Machine
end

