-- ==== Sys2Proof/Safety.lean ====
section
/-! DEFINITION. What counts as a good state (10_state.md R16) and as the end of a run
(70_reset_and_hazards.md R182), in the terms claims use. -/

namespace Sys2Proof.Machine

/-- The four opcodes the debug flag narrates (10_state.md R17, C6). -/
def narrated : Instr → Bool
  | .moveRight => true
  | .moveLeft => true
  | .increment => true
  | .decrement => true
  | .jumpForward => false
  | .jumpBack => false
  | .output => false
  | .input => false

/-- The invariant of every state reached from reset, faulted ones too. From 10_state.md R16: the tape has a
cell, the data pointer is a valid index, `pc` is at most `INSTR_COUNT` (except after an unmatched-jump
fault, where it is unspecified: R143). The tape is in canonical form with every listed cell on the tape;
the input position is within the input (R114); only ASCII or U+FFFD has been emitted (R111); only the
four narrated opcodes have been narrated (R17); and after `InputExhausted` the counter still indexes the
Input instruction, with no byte left (R115). -/
abbrev State.Inv (s : State) : Prop :=
  1 ≤ s.tapeLen ∧
  s.dp < s.tapeLen ∧
  Memory.wf s.tape = true ∧
  (∀ c ∈ s.tape, c.1 < s.tapeLen) ∧
  (s.status = .running ∨ s.status = .faultInputExhausted → s.pc ≤ s.instrCount) ∧
  s.inpos ≤ s.input.length ∧
  (∀ c ∈ s.output, c.toNat ≤ 127 ∨ c = replacementChar) ∧
  (∀ i ∈ s.narration, narrated i = true) ∧
  (s.status = .faultInputExhausted → s.fetch = some .input ∧ s.inpos = s.input.length)

/-- The run has ended well: the state is final (70_reset_and_hazards.md R182). -/
abbrev State.Final (s : State) : Prop := s.status = .running ∧ s.instrCount ≤ s.pc

/-- The run has ended badly: a fault is latched, whatever `pc` says (R182). -/
abbrev State.EndedBadly (s : State) : Prop := s.status ≠ .running

/-- The run has neither ended well nor badly (R182). -/
abbrev State.StillRunning (s : State) : Prop := s.status = .running ∧ s.pc < s.instrCount

end Sys2Proof.Machine
end

