-- ==== Sys2Proof/Certificates/Slice0/Obligations.lean ====
section
/-! DEFINITION. The statements about the machine, one definition each, in the order of the spec's files.
A state is quantified over freely; where a statement needs a well-formed state, the premise says what. -/

open Sys2Proof Sys2Proof.Machine

/-! ## Words the statements use -/

/-- The narration history after a successful instruction of the narrated four (10_state.md R17). -/
def Claims.narrationWith (s : State) (i : Instr) : List Instr :=
  if s.debug = true then s.narration ++ [i] else s.narration

/-- A token: a run of non-whitespace characters, not empty (30_encoding.md R63). -/
def Claims.IsWord (w : List Char) : Prop := w ≠ [] ∧ ∀ c ∈ w, isAsciiSpace c = false

/-- A separator: a run of whitespace characters, not empty. -/
def Claims.IsGap (g : List Char) : Prop := g ≠ [] ∧ ∀ c ∈ g, isAsciiSpace c = true

/-- A source text written as leading characters and then words, each with the separator after it. -/
def Claims.textOf (lead : List Char) (body : List (List Char × List Char)) : List Char :=
  lead ++ body.flatMap (fun p => p.1 ++ p.2)

/-- The opcode a word contributes to a program: none when it fails to decode. -/
def Claims.opcodeOf (P : TokenParams) (w : List Char) : Option Instr :=
  match decodeToken P w with
  | .ok i => some i
  | .error _ => none

/-- Among the instructions at indices `lo ≤ k < hi` the JumpForward and JumpBack opcodes are equal in number. -/
def Claims.Balanced (program : List Instr) (lo hi : Nat) : Prop :=
  ((program.take hi).drop lo).count .jumpForward = ((program.take hi).drop lo).count .jumpBack

/-- One instruction executed `k` times, stopping at the first stop. -/
def Claims.repeatExec : Nat → Instr → State → Host.Outcome State Fault Refusal
  | 0, _, s => .next s
  | k + 1, i, s =>
    match exec i s with
    | .next t => Claims.repeatExec k i t
    | .fault r => .fault r
    | .refused r => .refused r

/-- An outcome with a function applied to its next state. -/
def Claims.mapNext (f : State → State) :
    Host.Outcome State Fault Refusal → Host.Outcome State Fault Refusal
  | .next t => .next (f t)
  | .fault r => .fault r
  | .refused r => .refused r

/-- A state without its debug flag and narration. -/
def Claims.withoutDebug (s : State) : State := { s with debug := false, narration := [] }

/-! ## Encoding, decoder and loader (30_encoding.md) -/

/-- Eight words written out from the column "binary" of 30_encoding.md section 1. The index order is the
spec's decision D2 and the 3-bit word its decision D3 (log 15). -/
def Obligations.TableWordsDecode : Prop :=
  decodeTableWord 8 0b000 = some .moveRight ∧ decodeTableWord 8 0b001 = some .moveLeft ∧
  decodeTableWord 8 0b010 = some .increment ∧ decodeTableWord 8 0b011 = some .decrement ∧
  decodeTableWord 8 0b100 = some .jumpForward ∧ decodeTableWord 8 0b101 = some .jumpBack ∧
  decodeTableWord 8 0b110 = some .output ∧ decodeTableWord 8 0b111 = some .input

/-- 30_encoding.md R54, with the position rule of R52 written out: a token decodes exactly when every
character stands where the alternation demands it and the length is 3 to 10, and then the index is the
length minus 3. -/
def Obligations.DecoderAcceptsExactlyAlternatingTokens : Prop :=
  ∀ (P : TokenParams) (token : List Char),
    ((∃ i, decodeToken P token = .ok i) ↔
      (∀ k c, token[k]? = some c → c = if k % 2 = 0 then P.marker else P.terminator) ∧
      3 ≤ token.length ∧ token.length ≤ 10) ∧
    (∀ i, decodeToken P token = .ok i → opcodeOfIndex (token.length - 3) = some i)

/-- Decode and encode agree, in both encodings and both directions (30_encoding.md section 5: `TokenOf` is
the only token that decodes to its opcode; section 3: the 3-bit entry). Rests on D2 and D3 only through
the tables. -/
def Obligations.DecodeEncodeAgree : Prop :=
  (∀ (P : TokenParams) (token : List Char) (i : Instr), decodeToken P token = .ok i ↔ token = tokenOf P i) ∧
  (∀ (w : OpWord) (i : Instr), decodeWord w = i ↔ w = encode i)

/-- 30_encoding.md R64: the loaded program is the opcodes of the words that decode, in source order, gaps
closed up; and every text is made of words and separators, so this covers every text. -/
def Obligations.LoadKeepsDecodedWordsInOrder : Prop :=
  (∀ (P : TokenParams) (lead : List Char) (body : List (List Char × List Char)) (last : List Char),
    (∀ c ∈ lead, isAsciiSpace c = true) →
    (∀ p ∈ body, Claims.IsWord p.1 ∧ Claims.IsGap p.2) →
    (∀ c ∈ last, isAsciiSpace c = false) →
    (load P (Claims.textOf lead body ++ last)).map decodeWord =
      (body.map Prod.fst ++ [last]).filterMap (Claims.opcodeOf P)) ∧
  (∀ text : List Char, ∃ lead body last,
    (∀ c ∈ lead, isAsciiSpace c = true) ∧
    (∀ p ∈ body, Claims.IsWord p.1 ∧ Claims.IsGap p.2) ∧
    (∀ c ∈ last, isAsciiSpace c = false) ∧
    text = Claims.textOf lead body ++ last)

/-- 30_encoding.md R65: junk words change nothing, wherever they stand: the words with a separator after
them and a last one without (empty when the text ends in whitespace) are kept exactly when they decode,
and the program is the same. Every text is so written (LoadKeepsDecodedWordsInOrder, second half). -/
def Obligations.JunkWordsChangeNothing : Prop :=
  ∀ (P : TokenParams) (lead : List Char) (body : List (List Char × List Char)) (last : List Char),
    (∀ c ∈ lead, isAsciiSpace c = true) →
    (∀ p ∈ body, Claims.IsWord p.1 ∧ Claims.IsGap p.2) →
    (∀ c ∈ last, isAsciiSpace c = false) →
    load P (Claims.textOf lead body ++ last) =
      load P (Claims.textOf [] (body.filter (fun p => (Claims.opcodeOf P p.1).isSome)) ++
        if (Claims.opcodeOf P last).isSome then last else [])

/-- The model's own reading of "UTF-8 text" (log 12) on the bytes below 128: each is the character of that
number. -/
def Obligations.AsciiSourceReadsAsItself : Prop :=
  ∀ bytes : List Byte, (∀ b ∈ bytes, b.toNat < 128) →
    utf8Decode bytes = some (bytes.map (fun b => Char.ofNat b.toNat))

/-! ## The step (40_step_cycle.md) -/

/-- A step of a running machine whose counter indexes an entry is the execution of the instruction that
entry holds, and nothing around it: the advance and the narration belong to each meaning. -/
def Obligations.StepRunsTheDecodedInstruction : Prop :=
  ∀ (s : State) (w : OpWord), 1 ≤ s.tapeLen → s.status = .running → s.imem[s.pc]? = some w →
    step s = exec (decodeWord w) s

/-- 40_step_cycle.md R76: `is_done()` is `pc ≥ INSTR_COUNT`, true of an empty program at reset, equal to
`pc = INSTR_COUNT` in good running states, and a step of a done machine changes nothing. -/
def Obligations.IsDoneAndStepOfDoneMachine : Prop :=
  (∀ s : State, s.isDone = true ↔ s.imem.length ≤ s.pc) ∧
  (∀ n : Nat, (State.fresh n []).isDone = true) ∧
  (∀ s : State, s.Inv → s.status = .running → (s.isDone = true ↔ s.pc = s.imem.length)) ∧
  (∀ s : State, 1 ≤ s.tapeLen → s.status = .running → s.isDone = true →
    step s = .next s ∧ stepTransaction s = .next (s, .programAlreadyDone))

/-- 40_step_cycle.md R74: after a success the counter is one past the instruction, or one past the matched
bracket after a taken jump; `ProgramAlreadyDone` and `InputExhausted` leave it. (After an unmatched jump
it is unspecified: nothing is said.) -/
def Obligations.CounterAdvance : Prop :=
  ∀ (s t : State) (r : StepResult), s.status = .running → stepTransaction s = .next (t, r) →
    (r = .ok →
      (s.fetch = some .jumpForward → Memory.read s.tape s.dp = 0 →
        ∃ j, scanForward s.program s.pc = some j ∧ t.pc = j + 1) ∧
      (s.fetch = some .jumpBack → Memory.read s.tape s.dp ≠ 0 →
        ∃ j, scanBackward s.program s.pc = some j ∧ t.pc = j + 1) ∧
      (¬(s.fetch = some .jumpForward ∧ Memory.read s.tape s.dp = 0) →
        ¬(s.fetch = some .jumpBack ∧ Memory.read s.tape s.dp ≠ 0) → t.pc = s.pc + 1)) ∧
    (r = .programAlreadyDone ∨ r = .inputExhausted → t.pc = s.pc)

/-- 40_step_cycle.md section 2, consequences (a) and (e): a success leaves the counter within the program's
length, and moves it forward except for a taken JumpBack, which does not. -/
def Obligations.CounterDirection : Prop :=
  ∀ s t : State, s.status = .running → stepTransaction s = .next (t, .ok) →
    t.pc ≤ s.imem.length ∧
    (s.fetch = some .jumpBack ∧ Memory.read s.tape s.dp ≠ 0 → 1 ≤ t.pc ∧ t.pc ≤ s.pc) ∧
    (¬(s.fetch = some .jumpBack ∧ Memory.read s.tape s.dp ≠ 0) → s.pc < t.pc)

/-- The result codes of 60_exceptions.md section 1 and their causes, for a step from a running state. The
codes are the spec's decision D11, the separate jump results its decision D6 (log 15). -/
def Obligations.ResultCodesAndCauses : Prop :=
  (∀ (s t : State) (r : StepResult), s.status = .running → stepTransaction s = .next (t, r) →
    (r.code = 1 ↔ s.imem.length ≤ s.pc) ∧
    (r.code = 2 ↔ s.fetch = some .jumpForward ∧ Memory.read s.tape s.dp = 0 ∧
      scanForward s.program s.pc = none) ∧
    (r.code = 3 ↔ s.fetch = some .jumpBack ∧ Memory.read s.tape s.dp ≠ 0 ∧
      scanBackward s.program s.pc = none) ∧
    (r.code = 4 ↔ s.fetch = some .input ∧ s.input.length ≤ s.inpos) ∧
    r.code ≤ 4 ∧
    (r.code ≤ 1 ↔ t.status.code = 0) ∧ (r.code = 2 ↔ t.status.code = 1) ∧
    (r.code = 3 ↔ t.status.code = 2) ∧ (r.code = 4 ↔ t.status.code = 3))

/-! ## Pointer instructions (41_pointer.md) -/

/-- MoveRight: its whole effect, every other field as before; it cannot fail. The narration event is the
spec's decision D12 (log 10). -/
def Obligations.MoveRightResult : Prop :=
  ∀ s : State, s.dp < s.tapeLen →
    exec .moveRight s = .next { s with
      dp := (s.dp + 1) % s.tapeLen
      pc := s.pc + 1
      narration := Claims.narrationWith s .moveRight }

/-- MoveLeft: its whole effect, every other field as before; it cannot fail. The narration event is the
spec's decision D12 (log 10). -/
def Obligations.MoveLeftResult : Prop :=
  ∀ s : State, s.dp < s.tapeLen →
    exec .moveLeft s = .next { s with
      dp := if 0 < s.dp then s.dp - 1 else s.tapeLen - 1
      pc := s.pc + 1
      narration := Claims.narrationWith s .moveLeft }

/-- 41_pointer.md R92: (a) `k` MoveRights give `(p + k) mod n`, the start again exactly when `n` divides `k`;
(b) the same to the left; (c) the two are inverse in either order; (d) neither changes the tape or
depends on it; (e) no engine is constructed over a tape of length 0. -/
def Obligations.PointerLaws : Prop :=
  (∀ (s : State) (k : Nat), s.dp < s.tapeLen →
    (∃ t, Claims.repeatExec k .moveRight s = .next t ∧ t.dp = (s.dp + k) % s.tapeLen ∧
      (t.dp = s.dp ↔ s.tapeLen ∣ k) ∧ t.tape = s.tape) ∧
    (∃ t, Claims.repeatExec k .moveLeft s = .next t ∧ (t.dp : Int) = ((s.dp : Int) - k) % s.tapeLen ∧
      (t.dp = s.dp ↔ s.tapeLen ∣ k) ∧ t.tape = s.tape)) ∧
  (∀ s : State, s.dp < s.tapeLen →
    (∃ t u, exec .moveRight s = .next t ∧ exec .moveLeft t = .next u ∧ u.dp = s.dp) ∧
    (∃ t u, exec .moveLeft s = .next t ∧ exec .moveRight t = .next u ∧ u.dp = s.dp)) ∧
  (∀ (s : State) (m : List Host.Cell) (i : Instr), i = .moveRight ∨ i = .moveLeft →
    exec i { s with tape := m } = Claims.mapNext (fun t => { t with tape := m }) (exec i s)) ∧
  (∀ imem : List OpWord, construct 0 imem = .refused .zeroLengthTape)

/-- 10_state.md R14: only MoveRight and MoveLeft write the data pointer, every other instruction and every
failing step leaves it; it is always a valid index; it is 0 at reset. -/
def Obligations.PointerWrittenByMovesOnly : Prop :=
  (∀ (i : Instr) (s t : State), exec i s = .next t → i ≠ .moveRight → i ≠ .moveLeft → t.dp = s.dp) ∧
  (∀ (i : Instr) (s t : State), exec i s = .next t → t.dp < t.tapeLen) ∧
  (∀ (s t : State) (r : StepResult), stepTransaction s = .next (t, r) → r ≠ .ok → t.dp = s.dp) ∧
  (∀ (n : Nat) (imem : List OpWord), (State.fresh n imem).dp = 0)

/-! ## Cell arithmetic (42_cell_arith.md) -/

/-- Increment: the current cell plus one modulo 256, every other cell and every other field as before; it
cannot fail. The narration event is the spec's decision D12 (log 10). -/
def Obligations.IncrementResult : Prop :=
  ∀ s : State, s.dp < s.tapeLen → Memory.wf s.tape = true →
    ∃ t, exec .increment s = .next t ∧
      (Memory.read t.tape s.dp).toNat = ((Memory.read s.tape s.dp).toNat + 1) % 256 ∧
      (∀ a, a ≠ s.dp → Memory.read t.tape a = Memory.read s.tape a) ∧
      t = { s with
        tape := t.tape
        pc := s.pc + 1
        narration := Claims.narrationWith s .increment }

/-- Decrement: the current cell minus one modulo 256, every other cell and every other field as before; it
cannot fail. The narration event is the spec's decision D12 (log 10). -/
def Obligations.DecrementResult : Prop :=
  ∀ s : State, s.dp < s.tapeLen → Memory.wf s.tape = true →
    ∃ t, exec .decrement s = .next t ∧
      (Memory.read t.tape s.dp).toNat = ((Memory.read s.tape s.dp).toNat + 255) % 256 ∧
      (∀ a, a ≠ s.dp → Memory.read t.tape a = Memory.read s.tape a) ∧
      t = { s with
        tape := t.tape
        pc := s.pc + 1
        narration := Claims.narrationWith s .decrement }

/-- 42_cell_arith.md R102: (a) Increment and Decrement are inverse on the cell; (b) after `k` of either the
cell is `(v ± k) mod 256`, so after 256 it is `v` again; (c) the result is within 0..255; (d) each is one
execution that reads and writes the same one cell. -/
def Obligations.CellLaws : Prop :=
  (∀ s : State, s.dp < s.tapeLen → Memory.wf s.tape = true →
    (∃ t u, exec .increment s = .next t ∧ exec .decrement t = .next u ∧
      ∀ a, Memory.read u.tape a = Memory.read s.tape a) ∧
    (∃ t u, exec .decrement s = .next t ∧ exec .increment t = .next u ∧
      ∀ a, Memory.read u.tape a = Memory.read s.tape a)) ∧
  (∀ (s : State) (k : Nat), s.dp < s.tapeLen → Memory.wf s.tape = true →
    (∃ t, Claims.repeatExec k .increment s = .next t ∧
      (Memory.read t.tape s.dp).toNat = ((Memory.read s.tape s.dp).toNat + k) % 256 ∧
      (256 ∣ k → Memory.read t.tape s.dp = Memory.read s.tape s.dp)) ∧
    (∃ t, Claims.repeatExec k .decrement s = .next t ∧
      ((Memory.read t.tape s.dp).toNat : Int) = (((Memory.read s.tape s.dp).toNat : Int) - k) % 256 ∧
      (256 ∣ k → Memory.read t.tape s.dp = Memory.read s.tape s.dp))) ∧
  (∀ (s t : State) (i : Instr), i = .increment ∨ i = .decrement → exec i s = .next t →
    (Memory.read t.tape s.dp).toNat ≤ 255 ∧
    ∀ a, a ≠ s.dp → Memory.read t.tape a = Memory.read s.tape a)

/-- 10_state.md R15: the tape's length never changes; only Increment, Decrement and Input write a cell, and
only the current one; Output and the jumps, which read it, and the moves leave every cell; every cell is 0
at reset. -/
def Obligations.TapeWrittenAtCurrentCellOnly : Prop :=
  (∀ (i : Instr) (s t : State) (a : Nat), exec i s = .next t →
    (i ≠ .increment ∧ i ≠ .decrement ∧ i ≠ .input) ∨ a ≠ s.dp →
    Memory.read t.tape a = Memory.read s.tape a) ∧
  (∀ (i : Instr) (s t : State), exec i s = .next t → t.tapeLen = s.tapeLen) ∧
  (∀ (n : Nat) (imem : List OpWord) (a : Nat),
    (State.fresh n imem).tapeLen = n ∧ Memory.read (State.fresh n imem).tape a = 0)

/-! ## Input and output (43_io.md) -/

/-- Output: one character appended, the cell's value in 0..127 and U+FFFD above (the bound is the spec's
decision D24), every other field as before; it cannot fail. -/
def Obligations.OutputResult : Prop :=
  ∀ s : State, s.dp < s.tapeLen →
    ∃ c : CharCode,
      exec .output s = .next { s with output := s.output ++ [c], pc := s.pc + 1 } ∧
      c.toNat = if (Memory.read s.tape s.dp).toNat ≤ 127 then (Memory.read s.tape s.dp).toNat else 0xFFFD

/-- Input with a byte left: the byte is stored as it is, whatever the cell held, the position moves by one,
every other cell and field as before. -/
def Obligations.InputStoresNextByte : Prop :=
  ∀ (s : State) (b : Byte), s.dp < s.tapeLen → Memory.wf s.tape = true → s.input[s.inpos]? = some b →
    ∃ t, exec .input s = .next t ∧
      Memory.read t.tape s.dp = b ∧
      (∀ a, a ≠ s.dp → Memory.read t.tape a = Memory.read s.tape a) ∧
      t = { s with tape := t.tape, pc := s.pc + 1, inpos := s.inpos + 1 }

/-- Input at the end of the channel: the fault is latched and nothing else changes (43_io.md section 2; the
latch is the spec's decision D8). -/
def Obligations.InputExhaustedLatches : Prop :=
  ∀ s : State, s.dp < s.tapeLen → s.input.length ≤ s.inpos →
    exec .input s = .next { s with status := .faultInputExhausted }

/-- The channels' frame: only Output appends, only Input consumes, nothing emitted is ever taken back, and
what is emitted is 0..127 or U+FFFD (the bound is the spec's decision D24). -/
def Obligations.ChannelFrame : Prop :=
  (∀ (i : Instr) (s t : State), exec i s = .next t →
    (i ≠ .output → t.output = s.output) ∧
    (i = .output → ∃ c : CharCode, t.output = s.output ++ [c] ∧ (c.toNat ≤ 127 ∨ c.toNat = 0xFFFD)) ∧
    (i ≠ .input → t.inpos = s.inpos) ∧
    (i = .input → t.inpos = s.inpos + 1 ∨ (t.inpos = s.inpos ∧ t.status = .faultInputExhausted))) ∧
  (∀ s t : State, step s = .next t → s.output <+: t.output ∧ s.inpos ≤ t.inpos ∧ t.inpos ≤ s.inpos + 1)

/-- 40_step_cycle.md section 1: a step depends on the input channel only through its next byte; the bytes
before and after the position are as good as any. That the unspecified counter of an unmatched jump does
not depend on the input channel either is the model's choice (log 5). -/
def Obligations.OnlyTheNextInputByteMatters : Prop :=
  ∀ (s : State) (bytes : List Byte), bytes[s.inpos]? = s.input[s.inpos]? →
    step (s.supplyInput bytes) = Claims.mapNext (fun t => t.supplyInput bytes) (step s)

/-! ## Jumps (44_jumps.md) -/

/-- A jump whose condition fails is a no-op: JumpForward on a nonzero cell and JumpBack on a zero cell only
advance the counter, partner or no partner. -/
def Obligations.JumpNotTaken : Prop :=
  (∀ s : State, s.dp < s.tapeLen → Memory.read s.tape s.dp ≠ 0 →
    exec .jumpForward s = .next { s with pc := s.pc + 1 }) ∧
  (∀ s : State, s.dp < s.tapeLen → Memory.read s.tape s.dp = 0 →
    exec .jumpBack s = .next { s with pc := s.pc + 1 })

/-- 44_jumps.md R121: a taken JumpForward lands one past its partner, which lies at least two past the jump
and at most at the program's end, exactly there when the partner is the last instruction; nothing else
changes. -/
def Obligations.JumpForwardTaken : Prop :=
  ∀ (s : State) (j : Nat), s.dp < s.tapeLen → Memory.read s.tape s.dp = 0 →
    scanForward s.program s.pc = some j →
    exec .jumpForward s = .next { s with pc := j + 1 } ∧
    s.pc + 2 ≤ j + 1 ∧ j + 1 ≤ s.imem.length ∧ s.program[j]? = some .jumpBack ∧
    (j + 1 = s.imem.length ↔ j = s.imem.length - 1)

/-- 44_jumps.md R125: a taken JumpBack lands one past its partner, at most where the jump stands; exactly
there when the partner is the instruction just before, and then the same JumpBack executes again, for
ever; nothing else changes. -/
def Obligations.JumpBackTaken : Prop :=
  ∀ (s : State) (j : Nat), s.dp < s.tapeLen → Memory.read s.tape s.dp ≠ 0 →
    scanBackward s.program s.pc = some j →
    exec .jumpBack s = .next { s with pc := j + 1 } ∧
    1 ≤ j + 1 ∧ j + 1 ≤ s.pc ∧ s.program[j]? = some .jumpForward ∧
    (j + 1 = s.pc ↔ j = s.pc - 1) ∧
    (j + 1 = s.pc → s.status = .running → s.fetch = some .jumpBack →
      ∀ k, Host.Core.run Sys2Proof.core k s = .next s)

/-- The unmatched-jump faults: the status is latched, the counter is unspecified (the model's free value,
log 5), every other field of the spec is as before. The latch is the spec's decision D6, the backward
half's frame its decision D26. -/
def Obligations.UnmatchedJumpLatches : Prop :=
  (∀ s : State, s.dp < s.tapeLen → Memory.read s.tape s.dp = 0 → scanForward s.program s.pc = none →
    ∃ t, exec .jumpForward s = .next t ∧
      t = { s with status := .faultUnmatchedForward, pc := t.pc, draws := t.draws }) ∧
  (∀ s : State, s.dp < s.tapeLen → Memory.read s.tape s.dp ≠ 0 → scanBackward s.program s.pc = none →
    ∃ t, exec .jumpBack s = .next t ∧
      t = { s with status := .faultUnmatchedBack, pc := t.pc, draws := t.draws })

/-- The forward scan of 44_jumps.md section 1 finds the least later JumpBack before which, after the jump,
the brackets are equal in number; that the jump itself is not examined is the spec's decision D14. -/
def Obligations.ScanForwardFindsLeastBalanced : Prop :=
  ∀ (program : List Instr) (p j : Nat),
    scanForward program p = some j ↔
      p < j ∧ program[j]? = some .jumpBack ∧ Claims.Balanced program (p + 1) j ∧
      ∀ k, p < k → k < j → program[k]? = some .jumpBack → ¬ Claims.Balanced program (p + 1) k

/-- The backward scan of 44_jumps.md section 2 finds the greatest earlier JumpForward after which, before
the jump, the brackets are equal in number; that index 0 is examined and the jump itself is not is the
spec's decision D14. -/
def Obligations.ScanBackwardFindsGreatestBalanced : Prop :=
  ∀ (program : List Instr) (p j : Nat),
    scanBackward program p = some j ↔
      j < p ∧ program[j]? = some .jumpForward ∧ Claims.Balanced program (j + 1) p ∧
      ∀ k, j < k → k < p → program[k]? = some .jumpForward → ¬ Claims.Balanced program (k + 1) p

/-- Matching is mutual (44_jumps.md section 3, which the spec derives from the scans of D14): the partner of
a partner is the bracket itself, in both directions. -/
def Obligations.MatchingIsMutual : Prop :=
  ∀ (program : List Instr) (p q : Nat),
    (program[p]? = some .jumpForward → scanForward program p = some q →
      program[q]? = some .jumpBack ∧ scanBackward program q = some p) ∧
    (program[q]? = some .jumpBack → scanBackward program q = some p →
      program[p]? = some .jumpForward ∧ scanForward program p = some q)

/-! ## State, faults and runs (10_state.md, 60_exceptions.md, 70_reset_and_hazards.md) -/

/-- What `Construct` leaves (70_reset_and_hazards.md section 1): a tape length of at least 1 gives the reset
state, counter, pointer and cells 0, the program as given, nothing consumed or emitted; length 0 gives no
engine, and no step can be taken. The debug flag's and the latch's reset values and the refusal are the
spec's decisions D12, D6 and D5. -/
def Obligations.ConstructIsReset : Prop :=
  (∀ (n : Nat) (imem : List OpWord), 1 ≤ n → ∃ s, construct n imem = .next s ∧
    s.pc = 0 ∧ s.dp = 0 ∧ s.tapeLen = n ∧ (∀ a, Memory.read s.tape a = 0) ∧ s.imem = imem ∧
    s.debug = false ∧ s.status = .running ∧ s.inpos = 0 ∧ s.output = [] ∧ s.narration = [] ∧
    (s.isDone = true ↔ imem = [])) ∧
  (∀ imem : List OpWord, construct 0 imem = .refused .zeroLengthTape) ∧
  (∀ s : State, s.tapeLen = 0 → step s = .refused .zeroLengthTape)

/-- The invariant of 10_state.md section 7 holds in every constructed state, whatever the program, the debug
flag and the input, and in the model's `State.reset`. -/
def Obligations.ConstructedStatesMeetInvariant : Prop :=
  (∀ (n : Nat) (imem : List OpWord) (b : Bool) (bytes : List Byte), 1 ≤ n →
    (((State.fresh n imem).setDebug b).supplyInput bytes).Inv) ∧
  State.reset.Inv

/-- Every step keeps the invariant of 10_state.md section 7, from every state that meets it. Its clauses
about faulted states rest on the spec's decisions D6, D7 and D8, that about the output on D24, that about
the narration on D12 (log 15, log 10). -/
def Obligations.StepKeepsInvariant : Prop :=
  ∀ s t : State, s.Inv → step s = .next t → t.Inv

/-- In a state that meets the invariant a step always answers a next state: no instruction stops the model,
and a step always completes (70_reset_and_hazards.md section 4). That a step always completes is the
spec's decision D15 (log 16) and that the channels never make it wait D9 and D10 (log 13); that an
exhausted Input is latched and reported is its decision D8 and an unmatched jump's latch D6; that each
of these failures is a next state and not a stop is the model's choice (log 7). -/
def Obligations.GoodStatesAlwaysStep : Prop :=
  ∀ s : State, s.Inv → ∃ t, step s = .next t

/-- From source text to run: a text that is UTF-8 and a tape of at least one cell boot a machine that holds
the loaded program and that no number of steps stops or takes out of the invariant; the program, the tape
length, the input and the debug flag stay as booted (70_reset_and_hazards.md section 2). That no step
stops it rests on the spec's decisions D15 (log 16), D9 and D10 (log 13), D8 and D6, and on the model's
choice that a failing step is a next state (log 7); what UTF-8 is, is presumed (log 12). -/
def Obligations.BootedRunsStayGood : Prop :=
  ∀ (P : TokenParams) (source : List Byte) (text : List Char) (n : Nat) (b : Bool) (bytes : List Byte)
    (k : Nat), utf8Decode source = some text → 1 ≤ n →
    ∃ s t, boot P source n b bytes = .next s ∧ s.imem = load P text ∧
      Host.Core.run Sys2Proof.core k s = .next t ∧ t.Inv ∧
      t.imem = load P text ∧ t.tapeLen = n ∧ t.input = bytes ∧ t.debug = b

/-- The parameters of a run (10_state.md section 11) are written by no step, and the debug flag by the host
only: no self-modifying code, no growing tape. -/
def Obligations.RunParametersNeverChange : Prop :=
  (∀ (i : Instr) (s t : State), exec i s = .next t →
    t.imem = s.imem ∧ t.tapeLen = s.tapeLen ∧ t.input = s.input ∧ t.debug = s.debug) ∧
  (∀ s t : State, step s = .next t →
    t.imem = s.imem ∧ t.tapeLen = s.tapeLen ∧ t.input = s.input ∧ t.debug = s.debug)

/-- The fault latch is written by the three faulting instructions only, each to its own value, and only in
their failing cases; then nothing is drawn but the counter of an unmatched jump (60_exceptions.md
section 1; the latch is the spec's decision D6, the draw count the model's own, log 6). -/
def Obligations.LatchWrittenByFaultsOnly : Prop :=
  ∀ (i : Instr) (s t : State), exec i s = .next t →
    (t.status = s.status ∧ t.draws = s.draws) ∨
    (i = .jumpForward ∧ Memory.read s.tape s.dp = 0 ∧ scanForward s.program s.pc = none ∧
      t.status = .faultUnmatchedForward) ∨
    (i = .jumpBack ∧ Memory.read s.tape s.dp ≠ 0 ∧ scanBackward s.program s.pc = none ∧
      t.status = .faultUnmatchedBack) ∨
    (i = .input ∧ s.input.length ≤ s.inpos ∧ t.status = .faultInputExhausted ∧ t.draws = s.draws)

/-- After a fault (60_exceptions.md section 1; the spec's decision D6): every step returns the recorded
fault and changes nothing, whatever the counter is, so every later state is the same. -/
def Obligations.FaultIsLatched : Prop :=
  ∀ s : State, 1 ≤ s.tapeLen → s.status ≠ .running →
    (∃ r, s.status.fault? = some r ∧ stepTransaction s = .next (s, r)) ∧
    ∀ k, Host.Core.run Sys2Proof.core k s = .next s

/-- The end of a run (70_reset_and_hazards.md section 5; the spec's decision D20): a final state stays as it
is and is done; a faulted state is never final, nor is any state it reaches; and every state is exactly
one of ended well, ended badly, still running. -/
def Obligations.EndOfRun : Prop :=
  (∀ (s : State) (k : Nat), 1 ≤ s.tapeLen → s.Final →
    s.isDone = true ∧ Host.Core.run Sys2Proof.core k s = .next s) ∧
  (∀ (s t : State) (k : Nat), s.EndedBadly → Host.Core.run Sys2Proof.core k s = .next t → ¬ t.Final) ∧
  (∀ s : State, (s.Final ∧ ¬ s.EndedBadly ∧ ¬ s.StillRunning) ∨
    (¬ s.Final ∧ s.EndedBadly ∧ ¬ s.StillRunning) ∨ (¬ s.Final ∧ ¬ s.EndedBadly ∧ s.StillRunning))

/-- The host's loop (40_step_cycle.md section 5) leaves the state that as many steps as its budget leave,
and counts no more `Ok` steps than its budget; one that stops short of it has met the program's end or a
fault. -/
def Obligations.HostLoopIsARun : Prop :=
  ∀ (budget n : Nat) (s t : State), 1 ≤ s.tapeLen → hostLoop budget s = .next (t, n) →
    Host.Core.run Sys2Proof.core budget s = .next t ∧ n ≤ budget ∧
    (n < budget → t.isDone = true ∨ t.EndedBadly)

/-- What the debug flag does (10_state.md section 8; the event is the spec's decision D12, log 10): with the
flag on, a success of MoveRight, MoveLeft, Increment or Decrement adds one event, that opcode; every other
step, and every step with the flag off, adds none. -/
def Obligations.NarrationOfFourOpcodes : Prop :=
  (∀ (i : Instr) (s t : State), exec i s = .next t →
    t.narration =
      if s.debug = true ∧ (i = .moveRight ∨ i = .moveLeft ∨ i = .increment ∨ i = .decrement)
      then s.narration ++ [i] else s.narration) ∧
  (∀ (s t : State) (r : StepResult), stepTransaction s = .next (t, r) → r ≠ .ok →
    t.narration = s.narration)

/-- "Purely observational, no effect on semantics" (10_state.md section 8): two states that differ only in
the debug flag and the narration step to states that differ only there. That the unspecified counter of
an unmatched jump does not depend on them either is the model's choice (log 5). -/
def Obligations.DebugHasNoEffect : Prop :=
  ∀ s s' : State, Claims.withoutDebug s = Claims.withoutDebug s' →
    Claims.mapNext Claims.withoutDebug (step s) = Claims.mapNext Claims.withoutDebug (step s')

/-- The model's own stop (log 8): an instruction executed with the data pointer off the tape stops, all
eight of them; the spec gives such a state no rule (10_state.md section 7). -/
def Obligations.PointerOffTapeStops : Prop :=
  ∀ (i : Instr) (s : State), s.tapeLen ≤ s.dp → exec i s = .fault (.noSuchCell s.dp)
end

