-- ==== Sys2Proof/Laws/Codec.lean ====
section
/-! SUPPORT. The small facts about the two encodings: the table, the position rule and the token's length. -/

namespace Sys2Proof

/-- The index table and the 3-bit decoder are one table. -/
theorem opcodeOfIndex_toNat (w : OpWord) : opcodeOfIndex w.toNat = some (decodeWord w) := by
  revert w; decide

theorem opcodeOfIndex_encode (i : Instr) : opcodeOfIndex (encode i).toNat = some i := by
  cases i <;> rfl

/-- The table is defined on 0..7 and nowhere else. -/
theorem opcodeOfIndex_isSome_iff (n : Nat) : (opcodeOfIndex n).isSome = true ↔ n ≤ 7 := by
  unfold opcodeOfIndex
  split <;> (simp_all; try omega)

@[simp] theorem alternating_length (P : TokenParams) (n : Nat) : (alternating P n).length = n := by
  simp [alternating]

@[simp] theorem tokenOf_length (P : TokenParams) (i : Instr) :
    (tokenOf P i).length = (encode i).toNat + Machine.minTokenLen := by
  simp [tokenOf]

theorem alternating_get? (P : TokenParams) {n k : Nat} (h : k < n) :
    (alternating P n)[k]? = some (P.charAt k) := by
  simp [alternating, h]

/-- The position rule, character by character. -/
theorem alternatesFrom_iff (P : TokenParams) (p : Nat) (t : List Char) :
    alternatesFrom P p t = true ↔ ∀ k c, t[k]? = some c → c = P.charAt (p + k) := by
  induction t generalizing p with
  | nil => simp [alternatesFrom]
  | cons d rest ih =>
    simp only [alternatesFrom, Bool.and_eq_true, beq_iff_eq, ih]
    constructor
    · rintro ⟨hd, hrest⟩ k c hk
      cases k with
      | zero => simp only [List.getElem?_cons_zero, Option.some.injEq] at hk; rw [← hk, hd]; rfl
      | succ k => rw [hrest k c (by simpa using hk)]; congr 1; omega
    · intro h
      refine ⟨by simpa using h 0 d (by simp), fun k c hk => ?_⟩
      rw [h (k + 1) c (by simpa using hk)]
      congr 1; omega

end Sys2Proof
end

