-- ==== Sys2Proof/Laws/Memory.lean ====
section
/-! SUPPORT. The tape as a sparse list: a read after a write, the canonical form, and the addresses listed. -/

namespace Sys2Proof.Machine

@[simp] theorem Memory.read_nil (x : Nat) : Memory.read [] x = Memory.unlisted := rfl

@[simp] theorem Memory.wf_nil : Memory.wf [] = true := rfl

theorem Memory.wf_cons (a : Nat) (v : Byte) (rest : List Host.Cell) :
    Memory.wf ((a, v) :: rest) = true ↔
      v ≠ Memory.unlisted ∧ (∀ c ∈ rest, a < c.1) ∧ Memory.wf rest = true := by
  simp only [Memory.wf, Bool.and_eq_true, bne_iff_ne, List.all_eq_true, decide_eq_true_eq, and_assoc]

/-- A write leaves every other address alone. -/
theorem Memory.read_write_other (m : List Host.Cell) {x y : Nat} (v : Byte) (h : y ≠ x) :
    Memory.read (Memory.write m x v) y = Memory.read m y := by
  induction m with
  | nil => by_cases hv : v = Memory.unlisted <;> simp [Memory.write, Memory.read, hv, Ne.symm h]
  | cons c rest ih =>
    obtain ⟨a, w⟩ := c
    simp only [Memory.write]
    split
    · split <;> simp [Memory.read, Ne.symm h]
    · split
      · next hxa => subst hxa; split <;> simp [Memory.read, Ne.symm h]
      · simp only [Memory.read, ih]

/-- Below every listed address nothing is listed. -/
theorem Memory.read_below {m : List Host.Cell} {x : Nat} (h : ∀ c ∈ m, x < c.1) :
    Memory.read m x = Memory.unlisted := by
  induction m with
  | nil => rfl
  | cons c rest ih =>
    obtain ⟨a, w⟩ := c
    have hx : x < a := h (a, w) (by simp)
    simp [Memory.read, show a ≠ x by omega, ih fun c hc => h c (by simp [hc])]

/-- A read after a write to the same address gives the value written. -/
theorem Memory.read_write_same {m : List Host.Cell} (hm : Memory.wf m = true) (x : Nat) (v : Byte) :
    Memory.read (Memory.write m x v) x = v := by
  induction m with
  | nil => by_cases hv : v = Memory.unlisted <;> simp [Memory.write, Memory.read, hv]
  | cons c rest ih =>
    obtain ⟨a, w⟩ := c
    obtain ⟨hw, hlt, hrest⟩ := (Memory.wf_cons a w rest).mp hm
    simp only [Memory.write]
    split
    · next hxa =>
      split
      · next hv =>
        rw [hv]
        refine Memory.read_below fun c hc => ?_
        rcases List.mem_cons.mp hc with rfl | hc
        · exact hxa
        · exact hxa.trans (hlt c hc)
      · simp [Memory.read]
    · split
      · next hxa =>
        subst hxa
        split
        · next hv => rw [hv]; exact Memory.read_below hlt
        · simp [Memory.read]
      · next hxa => simp [Memory.read, Ne.symm hxa, ih hrest]

/-- A write lists no address but the old ones and its own. -/
theorem Memory.mem_write {m : List Host.Cell} {x : Nat} {v : Byte} {c : Host.Cell}
    (h : c ∈ Memory.write m x v) : c ∈ m ∨ c.1 = x := by
  induction m with
  | nil =>
    simp only [Memory.write] at h
    split at h
    · simp at h
    · simp only [List.mem_singleton] at h; simp [h]
  | cons d rest ih =>
    obtain ⟨a, w⟩ := d
    simp only [Memory.write] at h
    split at h
    · split at h
      · exact .inl h
      · rcases List.mem_cons.mp h with rfl | h
        · exact .inr rfl
        · exact .inl h
    · split at h
      · split at h
        · exact .inl (List.mem_cons_of_mem _ h)
        · rcases List.mem_cons.mp h with rfl | h
          · exact .inr rfl
          · exact .inl (List.mem_cons_of_mem _ h)
      · rcases List.mem_cons.mp h with rfl | h
        · exact .inl (by simp)
        · exact (ih h).imp (List.mem_cons_of_mem _) id

/-- Every write keeps the canonical form. -/
theorem Memory.write_wf {m : List Host.Cell} (hm : Memory.wf m = true) (x : Nat) (v : Byte) :
    Memory.wf (Memory.write m x v) = true := by
  induction m with
  | nil => by_cases hv : v = Memory.unlisted <;> simp [Memory.write, Memory.wf, hv]
  | cons c rest ih =>
    obtain ⟨a, w⟩ := c
    obtain ⟨hw, hlt, hrest⟩ := (Memory.wf_cons a w rest).mp hm
    simp only [Memory.write]
    split
    · next hxa =>
      split
      · exact hm
      · next hv =>
        refine (Memory.wf_cons _ _ _).mpr ⟨hv, fun c hc => ?_, hm⟩
        rcases List.mem_cons.mp hc with rfl | hc
        · exact hxa
        · exact hxa.trans (hlt c hc)
    · split
      · next hxa =>
        subst hxa
        split
        · exact hrest
        · next hv => exact (Memory.wf_cons _ _ _).mpr ⟨hv, hlt, hrest⟩
      · next hge hne =>
        refine (Memory.wf_cons _ _ _).mpr ⟨hw, fun c hc => ?_, ih hrest⟩
        rcases Memory.mem_write hc with hc | rfl
        · exact hlt c hc
        · omega

/-- A write to an address on the tape keeps every listed address on the tape. -/
theorem Memory.write_below {m : List Host.Cell} {n x : Nat} {v : Byte} (hm : ∀ c ∈ m, c.1 < n) (hx : x < n) :
    ∀ c ∈ Memory.write m x v, c.1 < n := fun c hc => by
  rcases Memory.mem_write hc with hc | rfl
  · exact hm c hc
  · exact hx

/-- Nothing is listed in the memory of the reset state. -/
theorem State.reset_tape_wf : Memory.wf State.reset.tape = true := rfl

end Sys2Proof.Machine
end

