-- ==== Sys2Proof/Laws/State.lean ====
section
/-! SUPPORT. Each named update of the state, field by field: what it writes and that it leaves the rest, so
that no later proof unfolds a record update. -/

namespace Sys2Proof.Machine

variable (s : State)

/-! ### `State.setCell` -/

@[simp] theorem State.setCell_imem (v : Byte) : (s.setCell v).imem = s.imem := rfl
@[simp] theorem State.setCell_pc (v : Byte) : (s.setCell v).pc = s.pc := rfl
@[simp] theorem State.setCell_tapeLen (v : Byte) : (s.setCell v).tapeLen = s.tapeLen := rfl
@[simp] theorem State.setCell_dp (v : Byte) : (s.setCell v).dp = s.dp := rfl
@[simp] theorem State.setCell_tape (v : Byte) : (s.setCell v).tape = Memory.write s.tape s.dp v := rfl
@[simp] theorem State.setCell_debug (v : Byte) : (s.setCell v).debug = s.debug := rfl
@[simp] theorem State.setCell_status (v : Byte) : (s.setCell v).status = s.status := rfl
@[simp] theorem State.setCell_input (v : Byte) : (s.setCell v).input = s.input := rfl
@[simp] theorem State.setCell_inpos (v : Byte) : (s.setCell v).inpos = s.inpos := rfl
@[simp] theorem State.setCell_output (v : Byte) : (s.setCell v).output = s.output := rfl
@[simp] theorem State.setCell_narration (v : Byte) : (s.setCell v).narration = s.narration := rfl
@[simp] theorem State.setCell_draws (v : Byte) : (s.setCell v).draws = s.draws := rfl

/-! ### `State.setDp` -/

@[simp] theorem State.setDp_imem (n : Nat) : (s.setDp n).imem = s.imem := rfl
@[simp] theorem State.setDp_pc (n : Nat) : (s.setDp n).pc = s.pc := rfl
@[simp] theorem State.setDp_tapeLen (n : Nat) : (s.setDp n).tapeLen = s.tapeLen := rfl
@[simp] theorem State.setDp_dp (n : Nat) : (s.setDp n).dp = n := rfl
@[simp] theorem State.setDp_tape (n : Nat) : (s.setDp n).tape = s.tape := rfl
@[simp] theorem State.setDp_debug (n : Nat) : (s.setDp n).debug = s.debug := rfl
@[simp] theorem State.setDp_status (n : Nat) : (s.setDp n).status = s.status := rfl
@[simp] theorem State.setDp_input (n : Nat) : (s.setDp n).input = s.input := rfl
@[simp] theorem State.setDp_inpos (n : Nat) : (s.setDp n).inpos = s.inpos := rfl
@[simp] theorem State.setDp_output (n : Nat) : (s.setDp n).output = s.output := rfl
@[simp] theorem State.setDp_narration (n : Nat) : (s.setDp n).narration = s.narration := rfl
@[simp] theorem State.setDp_draws (n : Nat) : (s.setDp n).draws = s.draws := rfl

/-! ### `State.setPc` -/

@[simp] theorem State.setPc_imem (n : Nat) : (s.setPc n).imem = s.imem := rfl
@[simp] theorem State.setPc_pc (n : Nat) : (s.setPc n).pc = n := rfl
@[simp] theorem State.setPc_tapeLen (n : Nat) : (s.setPc n).tapeLen = s.tapeLen := rfl
@[simp] theorem State.setPc_dp (n : Nat) : (s.setPc n).dp = s.dp := rfl
@[simp] theorem State.setPc_tape (n : Nat) : (s.setPc n).tape = s.tape := rfl
@[simp] theorem State.setPc_debug (n : Nat) : (s.setPc n).debug = s.debug := rfl
@[simp] theorem State.setPc_status (n : Nat) : (s.setPc n).status = s.status := rfl
@[simp] theorem State.setPc_input (n : Nat) : (s.setPc n).input = s.input := rfl
@[simp] theorem State.setPc_inpos (n : Nat) : (s.setPc n).inpos = s.inpos := rfl
@[simp] theorem State.setPc_output (n : Nat) : (s.setPc n).output = s.output := rfl
@[simp] theorem State.setPc_narration (n : Nat) : (s.setPc n).narration = s.narration := rfl
@[simp] theorem State.setPc_draws (n : Nat) : (s.setPc n).draws = s.draws := rfl

/-! ### `State.advance` -/

@[simp] theorem State.advance_imem : s.advance.imem = s.imem := rfl
@[simp] theorem State.advance_pc : s.advance.pc = s.pc + 1 := rfl
@[simp] theorem State.advance_tapeLen : s.advance.tapeLen = s.tapeLen := rfl
@[simp] theorem State.advance_dp : s.advance.dp = s.dp := rfl
@[simp] theorem State.advance_tape : s.advance.tape = s.tape := rfl
@[simp] theorem State.advance_debug : s.advance.debug = s.debug := rfl
@[simp] theorem State.advance_status : s.advance.status = s.status := rfl
@[simp] theorem State.advance_input : s.advance.input = s.input := rfl
@[simp] theorem State.advance_inpos : s.advance.inpos = s.inpos := rfl
@[simp] theorem State.advance_output : s.advance.output = s.output := rfl
@[simp] theorem State.advance_narration : s.advance.narration = s.narration := rfl
@[simp] theorem State.advance_draws : s.advance.draws = s.draws := rfl

/-! ### `State.narrate` -/

@[simp] theorem State.narrate_imem (i : Instr) : (s.narrate i).imem = s.imem := rfl
@[simp] theorem State.narrate_pc (i : Instr) : (s.narrate i).pc = s.pc := rfl
@[simp] theorem State.narrate_tapeLen (i : Instr) : (s.narrate i).tapeLen = s.tapeLen := rfl
@[simp] theorem State.narrate_dp (i : Instr) : (s.narrate i).dp = s.dp := rfl
@[simp] theorem State.narrate_tape (i : Instr) : (s.narrate i).tape = s.tape := rfl
@[simp] theorem State.narrate_debug (i : Instr) : (s.narrate i).debug = s.debug := rfl
@[simp] theorem State.narrate_status (i : Instr) : (s.narrate i).status = s.status := rfl
@[simp] theorem State.narrate_input (i : Instr) : (s.narrate i).input = s.input := rfl
@[simp] theorem State.narrate_inpos (i : Instr) : (s.narrate i).inpos = s.inpos := rfl
@[simp] theorem State.narrate_output (i : Instr) : (s.narrate i).output = s.output := rfl
@[simp] theorem State.narrate_narration (i : Instr) :
    (s.narrate i).narration = bif s.debug then s.narration ++ [i] else s.narration := rfl
@[simp] theorem State.narrate_draws (i : Instr) : (s.narrate i).draws = s.draws := rfl

/-! ### `State.emit` -/

@[simp] theorem State.emit_imem (c : CharCode) : (s.emit c).imem = s.imem := rfl
@[simp] theorem State.emit_pc (c : CharCode) : (s.emit c).pc = s.pc := rfl
@[simp] theorem State.emit_tapeLen (c : CharCode) : (s.emit c).tapeLen = s.tapeLen := rfl
@[simp] theorem State.emit_dp (c : CharCode) : (s.emit c).dp = s.dp := rfl
@[simp] theorem State.emit_tape (c : CharCode) : (s.emit c).tape = s.tape := rfl
@[simp] theorem State.emit_debug (c : CharCode) : (s.emit c).debug = s.debug := rfl
@[simp] theorem State.emit_status (c : CharCode) : (s.emit c).status = s.status := rfl
@[simp] theorem State.emit_input (c : CharCode) : (s.emit c).input = s.input := rfl
@[simp] theorem State.emit_inpos (c : CharCode) : (s.emit c).inpos = s.inpos := rfl
@[simp] theorem State.emit_output (c : CharCode) : (s.emit c).output = s.output ++ [c] := rfl
@[simp] theorem State.emit_narration (c : CharCode) : (s.emit c).narration = s.narration := rfl
@[simp] theorem State.emit_draws (c : CharCode) : (s.emit c).draws = s.draws := rfl

/-! ### `State.consume` -/

@[simp] theorem State.consume_imem : s.consume.imem = s.imem := rfl
@[simp] theorem State.consume_pc : s.consume.pc = s.pc := rfl
@[simp] theorem State.consume_tapeLen : s.consume.tapeLen = s.tapeLen := rfl
@[simp] theorem State.consume_dp : s.consume.dp = s.dp := rfl
@[simp] theorem State.consume_tape : s.consume.tape = s.tape := rfl
@[simp] theorem State.consume_debug : s.consume.debug = s.debug := rfl
@[simp] theorem State.consume_status : s.consume.status = s.status := rfl
@[simp] theorem State.consume_input : s.consume.input = s.input := rfl
@[simp] theorem State.consume_inpos : s.consume.inpos = s.inpos + 1 := rfl
@[simp] theorem State.consume_output : s.consume.output = s.output := rfl
@[simp] theorem State.consume_narration : s.consume.narration = s.narration := rfl
@[simp] theorem State.consume_draws : s.consume.draws = s.draws := rfl

/-! ### `State.latch` -/

@[simp] theorem State.latch_imem (f : Status) : (s.latch f).imem = s.imem := rfl
@[simp] theorem State.latch_pc (f : Status) : (s.latch f).pc = s.pc := rfl
@[simp] theorem State.latch_tapeLen (f : Status) : (s.latch f).tapeLen = s.tapeLen := rfl
@[simp] theorem State.latch_dp (f : Status) : (s.latch f).dp = s.dp := rfl
@[simp] theorem State.latch_tape (f : Status) : (s.latch f).tape = s.tape := rfl
@[simp] theorem State.latch_debug (f : Status) : (s.latch f).debug = s.debug := rfl
@[simp] theorem State.latch_status (f : Status) : (s.latch f).status = f := rfl
@[simp] theorem State.latch_input (f : Status) : (s.latch f).input = s.input := rfl
@[simp] theorem State.latch_inpos (f : Status) : (s.latch f).inpos = s.inpos := rfl
@[simp] theorem State.latch_output (f : Status) : (s.latch f).output = s.output := rfl
@[simp] theorem State.latch_narration (f : Status) : (s.latch f).narration = s.narration := rfl
@[simp] theorem State.latch_draws (f : Status) : (s.latch f).draws = s.draws := rfl

/-! ### `State.latchUnmatched` -/

@[simp] theorem State.latchUnmatched_imem (f : Status) : (s.latchUnmatched f).imem = s.imem := rfl
@[simp] theorem State.latchUnmatched_pc (f : Status) :
    (s.latchUnmatched f).pc = Config.unspecifiedPc s.draws s.imem s.pc s.tapeLen s.dp s.tape := rfl
@[simp] theorem State.latchUnmatched_tapeLen (f : Status) : (s.latchUnmatched f).tapeLen = s.tapeLen := rfl
@[simp] theorem State.latchUnmatched_dp (f : Status) : (s.latchUnmatched f).dp = s.dp := rfl
@[simp] theorem State.latchUnmatched_tape (f : Status) : (s.latchUnmatched f).tape = s.tape := rfl
@[simp] theorem State.latchUnmatched_debug (f : Status) : (s.latchUnmatched f).debug = s.debug := rfl
@[simp] theorem State.latchUnmatched_status (f : Status) : (s.latchUnmatched f).status = f := rfl
@[simp] theorem State.latchUnmatched_input (f : Status) : (s.latchUnmatched f).input = s.input := rfl
@[simp] theorem State.latchUnmatched_inpos (f : Status) : (s.latchUnmatched f).inpos = s.inpos := rfl
@[simp] theorem State.latchUnmatched_output (f : Status) : (s.latchUnmatched f).output = s.output := rfl
@[simp] theorem State.latchUnmatched_narration (f : Status) : (s.latchUnmatched f).narration = s.narration := rfl
@[simp] theorem State.latchUnmatched_draws (f : Status) : (s.latchUnmatched f).draws = s.draws + 1 := rfl

/-! ### `State.setDebug` -/

@[simp] theorem State.setDebug_imem (b : Bool) : (s.setDebug b).imem = s.imem := rfl
@[simp] theorem State.setDebug_pc (b : Bool) : (s.setDebug b).pc = s.pc := rfl
@[simp] theorem State.setDebug_tapeLen (b : Bool) : (s.setDebug b).tapeLen = s.tapeLen := rfl
@[simp] theorem State.setDebug_dp (b : Bool) : (s.setDebug b).dp = s.dp := rfl
@[simp] theorem State.setDebug_tape (b : Bool) : (s.setDebug b).tape = s.tape := rfl
@[simp] theorem State.setDebug_debug (b : Bool) : (s.setDebug b).debug = b := rfl
@[simp] theorem State.setDebug_status (b : Bool) : (s.setDebug b).status = s.status := rfl
@[simp] theorem State.setDebug_input (b : Bool) : (s.setDebug b).input = s.input := rfl
@[simp] theorem State.setDebug_inpos (b : Bool) : (s.setDebug b).inpos = s.inpos := rfl
@[simp] theorem State.setDebug_output (b : Bool) : (s.setDebug b).output = s.output := rfl
@[simp] theorem State.setDebug_narration (b : Bool) : (s.setDebug b).narration = s.narration := rfl
@[simp] theorem State.setDebug_draws (b : Bool) : (s.setDebug b).draws = s.draws := rfl

/-! ### `State.supplyInput` -/

@[simp] theorem State.supplyInput_imem (bytes : List Byte) : (s.supplyInput bytes).imem = s.imem := rfl
@[simp] theorem State.supplyInput_pc (bytes : List Byte) : (s.supplyInput bytes).pc = s.pc := rfl
@[simp] theorem State.supplyInput_tapeLen (bytes : List Byte) : (s.supplyInput bytes).tapeLen = s.tapeLen := rfl
@[simp] theorem State.supplyInput_dp (bytes : List Byte) : (s.supplyInput bytes).dp = s.dp := rfl
@[simp] theorem State.supplyInput_tape (bytes : List Byte) : (s.supplyInput bytes).tape = s.tape := rfl
@[simp] theorem State.supplyInput_debug (bytes : List Byte) : (s.supplyInput bytes).debug = s.debug := rfl
@[simp] theorem State.supplyInput_status (bytes : List Byte) : (s.supplyInput bytes).status = s.status := rfl
@[simp] theorem State.supplyInput_input (bytes : List Byte) : (s.supplyInput bytes).input = bytes := rfl
@[simp] theorem State.supplyInput_inpos (bytes : List Byte) : (s.supplyInput bytes).inpos = s.inpos := rfl
@[simp] theorem State.supplyInput_output (bytes : List Byte) : (s.supplyInput bytes).output = s.output := rfl
@[simp] theorem State.supplyInput_narration (bytes : List Byte) : (s.supplyInput bytes).narration = s.narration := rfl
@[simp] theorem State.supplyInput_draws (bytes : List Byte) : (s.supplyInput bytes).draws = s.draws := rfl

/-! ### `State.withEntryAtPc` -/

@[simp] theorem State.withEntryAtPc_imem (w : OpWord) : (s.withEntryAtPc w).imem = placeEntry w s.pc s.imem := rfl
@[simp] theorem State.withEntryAtPc_pc (w : OpWord) : (s.withEntryAtPc w).pc = s.pc := rfl
@[simp] theorem State.withEntryAtPc_tapeLen (w : OpWord) : (s.withEntryAtPc w).tapeLen = s.tapeLen := rfl
@[simp] theorem State.withEntryAtPc_dp (w : OpWord) : (s.withEntryAtPc w).dp = s.dp := rfl
@[simp] theorem State.withEntryAtPc_tape (w : OpWord) : (s.withEntryAtPc w).tape = s.tape := rfl
@[simp] theorem State.withEntryAtPc_debug (w : OpWord) : (s.withEntryAtPc w).debug = s.debug := rfl
@[simp] theorem State.withEntryAtPc_status (w : OpWord) : (s.withEntryAtPc w).status = .running := rfl
@[simp] theorem State.withEntryAtPc_input (w : OpWord) : (s.withEntryAtPc w).input = s.input := rfl
@[simp] theorem State.withEntryAtPc_inpos (w : OpWord) : (s.withEntryAtPc w).inpos = s.inpos := rfl
@[simp] theorem State.withEntryAtPc_output (w : OpWord) : (s.withEntryAtPc w).output = s.output := rfl
@[simp] theorem State.withEntryAtPc_narration (w : OpWord) : (s.withEntryAtPc w).narration = s.narration := rfl
@[simp] theorem State.withEntryAtPc_draws (w : OpWord) : (s.withEntryAtPc w).draws = s.draws := rfl

end Sys2Proof.Machine
end

