-- ==== Sys2Proof/Laws/Exec.lean ====
section
/-! SUPPORT. What each shared operation, each meaning and the step can do, said once: later proofs cite these
lemmas instead of unfolding. -/

namespace Sys2Proof.Machine

/-! ### Shared operations -/

/-- On the tape, `onTape` goes on. -/
theorem State.onTape_of_lt {s : State} (h : s.dp < s.tapeLen) (go : Host.Outcome State Fault Refusal) :
    s.onTape go = go := by simp [State.onTape, h]

/-- Off the tape, `onTape` stops. -/
theorem State.onTape_of_le {s : State} (h : s.tapeLen ≤ s.dp) (go : Host.Outcome State Fault Refusal) :
    s.onTape go = .fault (.noSuchCell s.dp) := by simp [State.onTape, Nat.not_lt.mpr h]

/-- A next state comes out of `onTape` only on the tape. -/
theorem State.onTape_next {s t : State} {go : Host.Outcome State Fault Refusal} (h : s.onTape go = .next t) :
    s.dp < s.tapeLen ∧ go = .next t := by
  unfold State.onTape at h
  split at h
  · exact ⟨‹_›, h⟩
  · cases h

/-- The three things a jump does. -/
theorem State.jump_cases (s : State) (taken : Bool) (partner : Option Nat) (f : Status) :
    (taken = false ∧ s.jump taken partner f = s.advance) ∨
    (∃ j, taken = true ∧ partner = some j ∧ s.jump taken partner f = (s.setPc j).advance) ∨
    (taken = true ∧ partner = none ∧ s.jump taken partner f = s.latchUnmatched f) := by
  cases taken <;> cases partner <;> simp [State.jump]

theorem State.cellZero_iff (s : State) : s.cellZero = true ↔ s.cell = 0#8 := by simp [State.cellZero]

theorem State.cellNonzero_iff (s : State) : s.cellNonzero = true ↔ s.cell ≠ 0#8 := by
  simp [State.cellNonzero]

theorem State.isDone_iff (s : State) : s.isDone = true ↔ s.imem.length ≤ s.pc :=
  decide_eq_true_iff

theorem State.fetch_eq_none_iff (s : State) : s.fetch = none ↔ s.imem.length ≤ s.pc := by
  simp [State.fetch]

theorem State.nextInput_eq_none_iff (s : State) : s.nextInput = none ↔ s.input.length ≤ s.inpos := by
  simp [State.nextInput]

/-! ### Meanings: what a next state of each is -/

theorem execMoveRight_next {s t : State} (h : exec .moveRight s = .next t) :
    s.dp < s.tapeLen ∧ t = (s.setDp (rightOf s.tapeLen s.dp)).advance.narrate .moveRight := by
  obtain ⟨hd, ht⟩ := State.onTape_next h
  cases ht
  exact ⟨hd, rfl⟩

theorem execMoveLeft_next {s t : State} (h : exec .moveLeft s = .next t) :
    s.dp < s.tapeLen ∧ t = (s.setDp (leftOf s.tapeLen s.dp)).advance.narrate .moveLeft := by
  obtain ⟨hd, ht⟩ := State.onTape_next h
  cases ht
  exact ⟨hd, rfl⟩

theorem execIncrement_next {s t : State} (h : exec .increment s = .next t) :
    s.dp < s.tapeLen ∧ t = (s.setCell (s.cell + 1#8)).advance.narrate .increment := by
  obtain ⟨hd, ht⟩ := State.onTape_next h
  cases ht
  exact ⟨hd, rfl⟩

theorem execDecrement_next {s t : State} (h : exec .decrement s = .next t) :
    s.dp < s.tapeLen ∧ t = (s.setCell (s.cell + 255#8)).advance.narrate .decrement := by
  obtain ⟨hd, ht⟩ := State.onTape_next h
  cases ht
  exact ⟨hd, rfl⟩

theorem execOutput_next {s t : State} (h : exec .output s = .next t) :
    s.dp < s.tapeLen ∧ t = (s.emit (charOf s.cell)).advance := by
  obtain ⟨hd, ht⟩ := State.onTape_next h
  cases ht
  exact ⟨hd, rfl⟩

theorem execInput_next {s t : State} (h : exec .input s = .next t) :
    s.dp < s.tapeLen ∧
      ((s.nextInput = none ∧ t = s.latch .faultInputExhausted) ∨
       ∃ b, s.nextInput = some b ∧ t = (s.consume.setCell b).advance) := by
  obtain ⟨hd, ht⟩ := State.onTape_next h
  refine ⟨hd, ?_⟩
  cases hb : s.nextInput with
  | none => rw [hb] at ht; cases ht; exact .inl ⟨rfl, rfl⟩
  | some b => rw [hb] at ht; cases ht; exact .inr ⟨b, rfl, rfl⟩

theorem execJumpForward_next {s t : State} (h : exec .jumpForward s = .next t) :
    s.dp < s.tapeLen ∧
      ((s.cell ≠ 0#8 ∧ t = s.advance) ∨
       (∃ j, s.cell = 0#8 ∧ scanForward s.program s.pc = some j ∧ t = (s.setPc j).advance) ∨
       (s.cell = 0#8 ∧ scanForward s.program s.pc = none ∧ t = s.latchUnmatched .faultUnmatchedForward)) := by
  obtain ⟨hd, ht⟩ := State.onTape_next h
  cases ht
  refine ⟨hd, ?_⟩
  rcases s.jump_cases s.cellZero (scanForward s.program s.pc) .faultUnmatchedForward with
    ⟨hz, ht⟩ | ⟨j, hz, hj, ht⟩ | ⟨hz, hj, ht⟩
  · exact .inl ⟨fun hc => by simp [State.cellZero, hc] at hz, ht⟩
  · exact .inr (.inl ⟨j, s.cellZero_iff.mp hz, hj, ht⟩)
  · exact .inr (.inr ⟨s.cellZero_iff.mp hz, hj, ht⟩)

theorem execJumpBack_next {s t : State} (h : exec .jumpBack s = .next t) :
    s.dp < s.tapeLen ∧
      ((s.cell = 0#8 ∧ t = s.advance) ∨
       (∃ j, s.cell ≠ 0#8 ∧ scanBackward s.program s.pc = some j ∧ t = (s.setPc j).advance) ∨
       (s.cell ≠ 0#8 ∧ scanBackward s.program s.pc = none ∧ t = s.latchUnmatched .faultUnmatchedBack)) := by
  obtain ⟨hd, ht⟩ := State.onTape_next h
  cases ht
  refine ⟨hd, ?_⟩
  rcases s.jump_cases s.cellNonzero (scanBackward s.program s.pc) .faultUnmatchedBack with
    ⟨hz, ht⟩ | ⟨j, hz, hj, ht⟩ | ⟨hz, hj, ht⟩
  · refine .inl ⟨?_, ht⟩
    by_contra hc
    simp [State.cellNonzero, hc] at hz
  · exact .inr (.inl ⟨j, s.cellNonzero_iff.mp hz, hj, ht⟩)
  · exact .inr (.inr ⟨s.cellNonzero_iff.mp hz, hj, ht⟩)

/-! ### Placing an instruction where it is fetched next -/

theorem placeEntry_get? (w : OpWord) (n : Nat) (l : List OpWord) : (placeEntry w n l)[n]? = some w := by
  induction n generalizing l with
  | zero => cases l <;> rfl
  | succ n ih => cases l <;> simp [placeEntry, ih]

theorem State.fetch_withEntryAtPc (s : State) (w : OpWord) :
    (s.withEntryAtPc w).fetch = some (decodeWord w) := by
  simp [State.fetch, placeEntry_get?]

/-- The very next step runs exactly the instruction placed. -/
theorem step_withFetchWord {s : State} (h : s.tapeLen ≠ 0) (nbits w : Nat) :
    step (s.withFetchWord nbits w) =
      exec (decodeWord (entryOfBits nbits w)) (s.withFetchWord nbits w) := by
  simp [step, State.cycle, State.withFetchWord, State.fetch_withEntryAtPc, h]

/-! ### The step -/

/-- Everything a step that answers a next state can have done. -/
theorem step_next {s t : State} (h : step s = .next t) :
    s.tapeLen ≠ 0 ∧
      ((s.status ≠ .running ∧ t = s) ∨
       (s.status = .running ∧ s.fetch = none ∧ t = s) ∨
       (s.status = .running ∧ ∃ i, s.fetch = some i ∧ exec i s = .next t)) := by
  unfold step State.cycle at h
  split at h
  · cases h
  · next hz =>
    refine ⟨hz, ?_⟩
    split at h
    · next hs => cases h; exact .inl ⟨hs, rfl⟩
    · next hs =>
      have hs : s.status = .running := not_not.mp hs
      split at h
      · next hf => cases h; exact .inr (.inl ⟨hs, hf, rfl⟩)
      · next i hf => exact .inr (.inr ⟨hs, i, hf, h⟩)

/-- The transaction answers the step's next state with the result read from the two states. -/
theorem stepTransaction_next {s t : State} {r : StepResult} (h : stepTransaction s = .next (t, r)) :
    step s = .next t ∧ r = StepResult.between s t := by
  unfold stepTransaction at h
  unfold step
  split at h
  · next u hu => cases h; exact ⟨hu, rfl⟩
  · cases h
  · cases h

theorem stepTransaction_of_step {s t : State} (h : step s = .next t) :
    stepTransaction s = .next (t, StepResult.between s t) := by
  unfold step at h
  simp [stepTransaction, h]

end Sys2Proof.Machine
end

