-- ==== Sys2Proof/Laws/PerInstr.lean ====
section
/-! SUPPORT. One statement per instruction, about the instruction as syntax: its 3-bit entry reads back, its
token (for any two token characters) reads back, and its token's length is its index plus 3 (R54, R66). -/

namespace Sys2Proof.Laws.Encoding

/-- The instruction is well formed, and both its encodings read back as itself. -/
def Statement (i : Instr) : Prop :=
  i.wellFormed = true ∧ decodeWord (encode i) = i ∧
    ∀ P : TokenParams, (tokenOf P i).length = (encode i).toNat + 3 ∧ decodeToken P (tokenOf P i) = .ok i

theorem of_any (i : Instr) : Statement i := by
  refine ⟨rfl, by cases i <;> rfl, fun P => ⟨by simp [Machine.minTokenLen], ?_⟩⟩
  have ha : alternatesFrom P 0 (tokenOf P i) = true := by
    rw [alternatesFrom_iff]
    intro k c hk
    have hlt : k < (tokenOf P i).length := (List.getElem?_eq_some_iff.mp hk).1
    rw [tokenOf, alternating_get? P (by simpa using hlt)] at hk
    simpa using (Option.some.inj hk).symm
  simp [decodeToken, ha, opcodeOfIndex_encode, Machine.minTokenLen]

theorem moveRight : Statement .moveRight := of_any _
theorem moveLeft : Statement .moveLeft := of_any _
theorem increment : Statement .increment := of_any _
theorem decrement : Statement .decrement := of_any _
theorem jumpForward : Statement .jumpForward := of_any _
theorem jumpBack : Statement .jumpBack := of_any _
theorem output : Statement .output := of_any _
theorem input : Statement .input := of_any _

end Sys2Proof.Laws.Encoding
end

