-- ==== Sys2Proof/Laws/Scan.lean ====
section
/-! SUPPORT. What the shared scan can answer: the index of an entry it was given, holding the target opcode. -/

namespace Sys2Proof.Machine

/-- A match is one of the entries examined and holds the target opcode. -/
theorem scan_mem {deeper target : Instr} {depth j : Nat} {l : List (Instr × Nat)}
    (h : scan deeper target depth l = some j) : (target, j) ∈ l := by
  induction l generalizing depth with
  | nil => cases h
  | cons e rest ih =>
    obtain ⟨i, k⟩ := e
    simp only [scan] at h
    split at h
    · exact List.mem_cons_of_mem _ (ih h)
    · split at h
      · next hi =>
        split at h
        · cases h; simp [hi]
        · exact List.mem_cons_of_mem _ (ih h)
      · exact List.mem_cons_of_mem _ (ih h)

/-- A forward match lies after the jump and is a JumpBack of the program (44_jumps.md R121). -/
theorem scanForward_some {program : List Instr} {p j : Nat} (h : scanForward program p = some j) :
    p < j ∧ program[j]? = some .jumpBack := by
  have hm := scan_mem h
  obtain ⟨n, hn, he⟩ := List.mem_iff_getElem.mp hm
  simp only [List.getElem_drop, List.getElem_zipIdx, Prod.mk.injEq] at he
  obtain ⟨he, rfl⟩ := he
  refine ⟨by omega, ?_⟩
  rw [List.getElem?_eq_getElem (by simp at hn; omega)]
  simpa using he

/-- A backward match lies before the jump and is a JumpForward of the program (44_jumps.md R125). -/
theorem scanBackward_some {program : List Instr} {p j : Nat} (h : scanBackward program p = some j) :
    j < p ∧ program[j]? = some .jumpForward := by
  have hm := List.mem_reverse.mp (scan_mem h)
  obtain ⟨n, hn, he⟩ := List.mem_iff_getElem.mp hm
  simp only [List.getElem_take, List.getElem_zipIdx, Prod.mk.injEq] at he
  obtain ⟨he, rfl⟩ := he
  simp only [List.length_take, List.length_zipIdx] at hn
  refine ⟨by omega, ?_⟩
  rw [List.getElem?_eq_getElem (by omega)]
  simpa using he

end Sys2Proof.Machine
end

