-- ==== Sys2Proof/Tests/Slice0.lean ====
section
/-! SUPPORT. The model's own tests. Expected results are taken from spec/95_test_vectors.md (V-… and P…) and
from the tables and examples of the rules, never from the model; then, for every statement of
Obligations.lean that has hypotheses, a concrete state and operands that meet them. -/

namespace Sys2Proof.Tests

open Sys2Proof Sys2Proof.Machine

/-! ## Helpers -/

/-- A small state: a program, a counter, a tape length, a pointer and the cells that are not 0. -/
def at_ (ops : List Instr) (pc tapeLen dp : Nat) (tape : List Host.Cell) : State :=
  { State.fresh tapeLen (ops.map encode) with pc := pc, dp := dp, tape := tape }

/-- The next state of an outcome. -/
def nextOf {α : Type} : Host.Outcome α Fault Refusal → Option α
  | .next t => some t
  | .fault _ => none
  | .refused _ => none

/-- One thing read from the state a step leaves, with the result it returns. -/
def after {α : Type} (s : State) (f : State → α) : Option (α × StepResult) :=
  (nextOf (stepTransaction s)).map fun p => (f p.1, p.2)

/-- What `after` reads is what some transaction answers. -/
theorem transaction_of_after {α : Type} {s : State} {f : State → α} {v : α} {r : StepResult}
    (h : after s f = some (v, r)) : ∃ t, stepTransaction s = .next (t, r) ∧ f t = v := by
  unfold after nextOf at h
  split at h
  · next p hp => cases h; exact ⟨p.1, hp, rfl⟩
  · cases h
  · cases h

/-- An outcome that is a next state. -/
theorem next_of_isSome {α : Type} {o : Host.Outcome α Fault Refusal} (h : (nextOf o).isSome = true) :
    ∃ t, o = .next t := by
  unfold nextOf at h
  split at h
  · exact ⟨_, rfl⟩
  · cases h
  · cases h

/-- A condition on every entry of a list, checked entry by entry. -/
theorem forall_of_all {α : Type} {p : α → Prop} [DecidablePred p] {l : List α}
    (h : l.all (fun c => decide (p c)) = true) : ∀ c ∈ l, p c := by simpa using h

/-- Words and gaps, checked character by character. -/
theorem words_of_all {body : List (List Char × List Char)}
    (h : body.all (fun p => !p.1.isEmpty && p.1.all (fun c => !isAsciiSpace c) &&
      (!p.2.isEmpty && p.2.all isAsciiSpace)) = true) :
    ∀ p ∈ body, Claims.IsWord p.1 ∧ Claims.IsGap p.2 := by
  simpa [Claims.IsWord, Claims.IsGap, and_assoc] using h

/-- The invariant, checked clause by clause. -/
theorem inv_of_checks {s : State}
    (h : (decide (1 ≤ s.tapeLen) && decide (s.dp < s.tapeLen) && Memory.wf s.tape &&
      s.tape.all (fun c => decide (c.1 < s.tapeLen)) && decide (s.status = .running) &&
      decide (s.pc ≤ s.instrCount) && decide (s.inpos ≤ s.input.length) &&
      s.output.all (fun c => decide (c.toNat ≤ 127 ∨ c = replacementChar)) &&
      s.narration.all narrated) = true) : s.Inv := by
  simp only [Bool.and_eq_true, decide_eq_true_eq, List.all_eq_true] at h
  obtain ⟨⟨⟨⟨⟨⟨⟨⟨h1, h2⟩, h3⟩, h4⟩, h5⟩, h6⟩, h7⟩, h8⟩, h9⟩ := h
  exact ⟨h1, h2, h3, h4, fun _ => h6, h7, h8, h9, fun he => by rw [h5] at he; cases he⟩

/-- Decoding with the default characters. -/
def decodes (token : String) : Option Instr := (decodeToken defaultTokens token.toList).toOption

/-! ## Well-formedness: one ill-formed term for each check -/

theorem test_wf_every_instruction :
    [Instr.moveRight, .moveLeft, .increment, .decrement, .jumpForward, .jumpBack, .output, .input].all
      Instr.wellFormed = true := by decide

theorem test_wf_default_tokens : defaultTokens.wellFormed = true := by decide

theorem test_wf_refuses_equal_characters : TokenParams.wellFormed ⟨'p', 'p'⟩ = false := by decide

theorem test_wf_refuses_space_marker : TokenParams.wellFormed ⟨' ', 's'⟩ = false := by decide

theorem test_wf_refuses_tab_terminator : TokenParams.wellFormed ⟨'p', '\t'⟩ = false := by decide

theorem test_wf_tape_length : tapeLenOk 0 = false ∧ tapeLenOk 1 = true := by decide

/-! ## Decoding (30_encoding.md section 1; V-D1 to V-D21) -/

/-- The column "binary" of the opcode table. -/
theorem test_decode_words :
    [0b000#3, 0b001#3, 0b010#3, 0b011#3, 0b100#3, 0b101#3, 0b110#3, 0b111#3].map decodeWord =
      [.moveRight, .moveLeft, .increment, .decrement, .jumpForward, .jumpBack, .output, .input] := by decide

/-- V-D1 to V-D8. -/
theorem test_decode_tokens :
    ["psp", "psps", "pspsp", "pspsps", "pspspsp", "pspspsps", "pspspspsp", "pspspspsps"].map decodes =
      [some .moveRight, some .moveLeft, some .increment, some .decrement, some .jumpForward,
       some .jumpBack, some .output, some .input] := by decide

/-- V-D9 to V-D13: too short and too long. -/
theorem test_decode_refuses_lengths :
    ["", "p", "ps", "pspspspspsp", "pspspspspsps"].map decodes = [none, none, none, none, none] := by decide

/-- V-D14 to V-D21: broken alternation, a third character, case, two tokens run together. -/
theorem test_decode_refuses_alternation :
    (["sps", "spsp", "ppp", "pss", "pspps", "pspx", "PSP", "psP", "pSp", "psppsp"].map decodes).all
      Option.isNone = true := by decide

/-- V-L1: junk, a tab, line feeds. -/
theorem test_load_with_junk :
    load defaultTokens
      "hello psp world pspsp ps pspspspspsp\tpsps\n\n  Increment pspspsps".toList =
      [0b000#3, 0b010#3, 0b001#3, 0b101#3] := by decide

/-- V-L3, V-L4, V-L5: nothing decodes. -/
theorem test_load_empty :
    load defaultTokens "".toList = [] ∧ load defaultTokens "   \n\t".toList = [] ∧
      load defaultTokens "psp,psp".toList = [] := by decide

/-- V-L6: commentary that contains tokens is code. -/
theorem test_load_comment_is_code :
    load defaultTokens "a psp comment says psps".toList = [0b000#3, 0b001#3] := by decide

/-- UTF-8 by hand: U+0070, U+20AC; an overlong form, a lone continuation byte, a surrogate, a cut form. -/
theorem test_utf8 :
    utf8Decode [0x70#8, 0xE2#8, 0x82#8, 0xAC#8] = some ['p', Char.ofNat 0x20AC] ∧
      utf8Decode [0xC0#8, 0x80#8] = none ∧ utf8Decode [0x80#8] = none ∧
      utf8Decode [0xED#8, 0xA0#8, 0x80#8] = none ∧ utf8Decode [0xE2#8, 0x82#8] = none := by decide

/-- 43_io.md R112 and V-I5: the bytes behind `H` and U+FFFD. -/
theorem test_utf8_of_output :
    utf8OfOutput [0x48#21, 0xFFFD#21] = [0x48#8, 0xEF#8, 0xBF#8, 0xBD#8] := by decide

/-- Every row of the table, placed where the reset machine fetches next, is what the machine fetches, and the
step answers a next state. -/
theorem test_fetch_word_after_reset :
    (List.range 8).all (fun w =>
      decide ((State.reset.withFetchWord 8 w).fetch = decodeTableWord 8 w) &&
        (nextOf (step (State.reset.withFetchWord 8 w))).isSome) = true := by decide

/-! ## Instructions, at most two small theorems each -/

/-- V-P2: from the last cell to the first. -/
theorem test_moveRight_wraps :
    after (at_ [.moveRight] 0 4 3 []) (fun t => (t.dp, t.pc)) = some ((0, 1), .ok) := by decide

/-- V-P8: the pointer is not an 8-bit quantity. -/
theorem test_moveRight_past_255 :
    after (at_ [.moveRight] 0 257 255 []) (·.dp) = some (256, .ok) := by decide

/-- V-P5: from cell 0 to the last. -/
theorem test_moveLeft_wraps :
    after (at_ [.moveLeft] 0 4 0 []) (fun t => (t.dp, t.pc)) = some ((3, 1), .ok) := by decide

/-- V-P4 and V-P6. -/
theorem test_moveLeft_steps :
    after (at_ [.moveLeft] 0 4 3 []) (·.dp) = some (2, .ok) ∧
      after (at_ [.moveLeft] 0 1 0 []) (·.dp) = some (0, .ok) := by decide

/-- The text under V-C10: 255 wraps to 0 and the carry does not go into the neighbour. -/
theorem test_increment_wraps :
    after (at_ [.increment] 0 2 1 [(0, 7#8), (1, 255#8)]) (·.tape) = some ([(0, 7#8)], .ok) := by decide

/-- V-C2 and V-S4: 127 gives 128, and the debug flag adds one narration event. -/
theorem test_increment_narrated :
    after ((at_ [.increment] 0 1 0 [(0, 127#8)]).setDebug true) (fun t => (t.cell, t.narration)) =
      some ((128#8, [.increment]), .ok) := by decide

/-- V-C5 and V-C6. -/
theorem test_decrement_wraps :
    after (at_ [.decrement] 0 1 0 []) (·.cell) = some (255#8, .ok) ∧
      after (at_ [.decrement] 0 1 0 [(0, 1#8)]) (·.tape) = some ([], .ok) := by decide

/-- V-C7: 128 gives 127. -/
theorem test_decrement_unsigned :
    after (at_ [.decrement] 0 1 0 [(0, 128#8)]) (·.cell) = some (127#8, .ok) := by decide

/-- V-I1 and V-I4, V-I5: the boundary of ASCII. -/
theorem test_output_boundary :
    after (at_ [.output] 0 1 0 [(0, 127#8)]) (·.output) = some ([0x7F#21], .ok) ∧
      after (at_ [.output] 0 1 0 [(0, 128#8)]) (·.output) = some ([0xFFFD#21], .ok) := by decide

/-- V-S5: Output is not narrated. -/
theorem test_output_not_narrated :
    after ((at_ [.output] 0 1 0 []).setDebug true) (fun t => (t.output, t.narration)) =
      some (([0#21], []), .ok) := by decide

/-- V-I9: a byte of 255 is stored as it is. -/
theorem test_input_stores :
    after ((at_ [.input] 0 1 0 []).supplyInput [0xFF#8]) (fun t => (t.cell, t.inpos, t.pc)) =
      some ((255#8, 1, 1), .ok) := by decide

/-- V-I10: nothing changes but the status. -/
theorem test_input_exhausted :
    after (at_ [.output, .output, .input] 2 1 0 [(0, 9#8)]) (fun t => (t.cell, t.pc, t.readStatus)) =
      some ((9#8, 2, 3#2), .inputExhausted) := by decide

/-- V-J11: nested brackets, the match is at depth 0. -/
theorem test_jumpForward_nested :
    after (at_ [.jumpForward, .jumpForward, .jumpBack, .jumpBack, .increment] 0 1 0 []) (·.pc) =
      some (4, .ok) := by decide

/-- V-J8: no partner; the counter is not looked at. -/
theorem test_jumpForward_unmatched :
    after (at_ [.jumpForward] 0 1 0 []) (fun t => (t.dp, t.tape, t.readStatus)) =
      some ((0, [], 1#2), .unmatchedJumpForward) := by decide

/-- V-J14: an empty loop body, the counter stays. -/
theorem test_jumpBack_empty_body :
    after (at_ [.increment, .jumpForward, .jumpBack] 2 1 0 [(0, 1#8)]) (·.pc) = some (2, .ok) := by decide

/-- V-J10, its second step: no partner. -/
theorem test_jumpBack_unmatched :
    after (at_ [.increment, .jumpBack] 1 1 0 [(0, 1#8)]) (fun t => (t.dp, t.tape, t.readStatus)) =
      some ((0, [(0, 1#8)], 2#2), .unmatchedJumpBack) := by decide

/-- V-J3 and V-J6b: the scans depend on the program only. -/
theorem test_scans :
    scanForward [.jumpForward, .jumpForward, .jumpBack, .jumpForward, .jumpBack, .jumpBack] 0 = some 5 ∧
      scanBackward [.jumpForward, .jumpForward, .jumpBack, .jumpForward, .jumpBack, .jumpBack] 5 = some 0 ∧
      scanBackward [.jumpBack, .jumpForward, .jumpBack] 0 = none ∧
      scanForward [.jumpBack, .jumpForward, .jumpBack] 1 = some 2 := by decide

/-- V-S2 and V-I12: a done machine, and a machine with a latched fault, whatever its counter. -/
theorem test_done_and_latched :
    after (at_ [] 0 1 0 []) id = some (at_ [] 0 1 0 [], .programAlreadyDone) ∧
      after ((at_ [.increment] 7 1 0 []).latch .faultInputExhausted) (·.tape) =
        some ([], .inputExhausted) := by decide

/-- V-S6. -/
theorem test_construct_zero : construct 0 [0#3] = .refused .zeroLengthTape := rfl

/-! ## Witnesses: the hypotheses of each statement can be met -/

theorem witness_LoadKeepsDecodedWordsInOrder :
    ∃ (lead : List Char) (body : List (List Char × List Char)) (last : List Char),
      lead ≠ [] ∧ body ≠ [] ∧ last ≠ [] ∧ (∀ c ∈ lead, isAsciiSpace c = true) ∧
      (∀ p ∈ body, Claims.IsWord p.1 ∧ Claims.IsGap p.2) ∧ (∀ c ∈ last, isAsciiSpace c = false) :=
  ⟨[' '], [(['p', 's', 'p'], ['\n', ' ']), (['p', 's'], [' '])], ['p', 's', 'p', 's'], by decide, by decide,
    by decide, forall_of_all (by decide), words_of_all (by decide), forall_of_all (by decide)⟩

/-- A junk word in the body, with a last word that decodes and with one that does not. -/
theorem witness_JunkWordsChangeNothing :
    ∃ (lead : List Char) (body : List (List Char × List Char)) (last junk : List Char),
      (∀ c ∈ lead, isAsciiSpace c = true) ∧ (∀ p ∈ body, Claims.IsWord p.1 ∧ Claims.IsGap p.2) ∧
      (body.filter (fun p => (Claims.opcodeOf defaultTokens p.1).isSome)).length < body.length ∧
      (∀ c ∈ last, isAsciiSpace c = false) ∧ (Claims.opcodeOf defaultTokens last).isSome = true ∧
      (∀ c ∈ junk, isAsciiSpace c = false) ∧ junk ≠ [] ∧
      (Claims.opcodeOf defaultTokens junk).isSome = false :=
  ⟨['\t'], [(['p', 's', 'p'], [' ']), (['o', 'k'], [' '])], ['p', 's', 'p', 's'], ['p', 's'],
    forall_of_all (by decide), words_of_all (by decide), by decide, forall_of_all (by decide), by decide,
    forall_of_all (by decide), by decide, by decide⟩

theorem witness_AsciiSourceReadsAsItself :
    ∃ bytes : List Byte, bytes ≠ [] ∧ ∀ b ∈ bytes, b.toNat < 128 := ⟨[0#8, 0x70#8, 127#8], by decide⟩

theorem witness_StepRunsTheDecodedInstruction :
    ∃ (s : State) (w : OpWord), 1 ≤ s.tapeLen ∧ s.status = .running ∧ s.imem[s.pc]? = some w :=
  ⟨at_ [.increment, .input] 1 1 0 [], 7#3, by decide⟩

/-- Clauses three and four, at the counter equal to the program's length. -/
theorem witness_IsDoneAndStepOfDoneMachine :
    ∃ s : State, s.Inv ∧ 1 ≤ s.tapeLen ∧ s.status = .running ∧ s.isDone = true :=
  ⟨at_ [.increment] 1 1 0 [], inv_of_checks (by decide), by decide, rfl, by decide⟩

/-- A fall-through success. -/
theorem witness_CounterAdvance_fallThrough :
    ∃ s : State, s.status = .running ∧ (∃ t, stepTransaction s = .next (t, .ok) ∧ t.pc = 1) ∧
      ¬(s.fetch = some .jumpForward ∧ Memory.read s.tape s.dp = 0) ∧
      ¬(s.fetch = some .jumpBack ∧ Memory.read s.tape s.dp ≠ 0) :=
  ⟨at_ [.jumpForward] 0 1 0 [(0, 1#8)], rfl, transaction_of_after (by decide), by decide, by decide⟩

/-- A taken JumpForward whose partner is the last instruction. -/
theorem witness_CounterAdvance_forward :
    ∃ s : State, s.status = .running ∧ (∃ t, stepTransaction s = .next (t, .ok) ∧ t.pc = 2) ∧
      s.fetch = some .jumpForward ∧ Memory.read s.tape s.dp = 0 :=
  ⟨at_ [.jumpForward, .jumpBack] 0 1 0 [], rfl, transaction_of_after (by decide), by decide, by decide⟩

/-- A taken JumpBack whose partner is index 0: the boundary of CounterDirection too. -/
theorem witness_CounterAdvance_back :
    ∃ s : State, s.status = .running ∧ (∃ t, stepTransaction s = .next (t, .ok) ∧ t.pc = 1) ∧
      s.fetch = some .jumpBack ∧ Memory.read s.tape s.dp ≠ 0 :=
  ⟨at_ [.jumpForward, .jumpBack] 1 1 0 [(0, 255#8)], rfl, transaction_of_after (by decide), by decide,
    by decide⟩

/-- The steps that leave the counter: done, and out of input. -/
theorem witness_CounterAdvance_failing :
    (∃ s : State, s.status = .running ∧
      ∃ t, stepTransaction s = .next (t, .programAlreadyDone) ∧ t.pc = 0) ∧
    (∃ s : State, s.status = .running ∧ ∃ t, stepTransaction s = .next (t, .inputExhausted) ∧ t.pc = 0) :=
  ⟨⟨at_ [] 0 1 0 [], rfl, transaction_of_after (by decide)⟩,
    ⟨at_ [.input] 0 1 0 [], rfl, transaction_of_after (by decide)⟩⟩

/-- The taken JumpBack of an empty loop body; the third clause is met by `witness_CounterAdvance_forward`. -/
theorem witness_CounterDirection :
    ∃ s : State, s.status = .running ∧ (∃ t, stepTransaction s = .next (t, .ok) ∧ t.pc = 1) ∧
      s.fetch = some .jumpBack ∧ Memory.read s.tape s.dp ≠ 0 ∧ s.pc = 1 :=
  ⟨at_ [.jumpForward, .jumpBack] 1 1 0 [(0, 1#8)], rfl, transaction_of_after (by decide), by decide,
    by decide, rfl⟩

/-- Each of the five results is that of some step from a running state, with the status code beside it. -/
theorem witness_ResultCodesAndCauses : ∀ r : StepResult,
    ∃ (s : State) (c : BitVec 2), s.status = .running ∧
      ∃ t, stepTransaction s = .next (t, r) ∧ t.status.code = c := fun r =>
  match r with
  | .ok => ⟨at_ [.output] 0 1 0 [], 0#2, rfl, transaction_of_after (by decide)⟩
  | .programAlreadyDone => ⟨at_ [.output] 1 1 0 [], 0#2, rfl, transaction_of_after (by decide)⟩
  | .unmatchedJumpForward => ⟨at_ [.jumpForward] 0 1 0 [], 1#2, rfl, transaction_of_after (by decide)⟩
  | .unmatchedJumpBack => ⟨at_ [.jumpBack] 0 1 0 [(0, 1#8)], 2#2, rfl, transaction_of_after (by decide)⟩
  | .inputExhausted => ⟨at_ [.input] 0 1 0 [], 3#2, rfl, transaction_of_after (by decide)⟩

/-- The hypotheses of MoveRightResult, MoveLeftResult, OutputResult, IncrementResult, DecrementResult,
PointerLaws and CellLaws, at the last cell of a tape and at the only cell of one. -/
theorem witness_results :
    (∃ s : State, s.dp < s.tapeLen ∧ s.dp + 1 = s.tapeLen ∧ Memory.wf s.tape = true) ∧
    (∃ s : State, s.dp < s.tapeLen ∧ s.tapeLen = 1 ∧ Memory.wf s.tape = true) :=
  ⟨⟨at_ [] 0 4 3 [(0, 9#8), (3, 255#8)], by decide⟩, ⟨at_ [] 0 1 0 [], by decide⟩⟩

/-- CellLaws, the divisibility premise, and its last clause. -/
theorem witness_CellLaws :
    (∃ k : Nat, 256 ∣ k ∧ k ≠ 0) ∧ (∃ s t : State, exec .increment s = .next t) ∧
      (∃ s t : State, exec .decrement s = .next t) :=
  ⟨⟨256, by decide⟩, ⟨at_ [] 0 1 0 [(0, 255#8)], next_of_isSome (by decide)⟩,
    ⟨at_ [] 0 1 0 [], next_of_isSome (by decide)⟩⟩

/-- An instruction that answers a next state, for each of the eight: the hypothesis of the frames
PointerWrittenByMovesOnly, TapeWrittenAtCurrentCellOnly, ChannelFrame, RunParametersNeverChange,
LatchWrittenByFaultsOnly and NarrationOfFourOpcodes. -/
theorem witness_frames : ∀ i : Instr, ∃ s t : State, exec i s = .next t := fun i => by
  cases i
  all_goals exact ⟨at_ [.jumpForward, .jumpBack] 0 2 1 [(0, 7#8)], next_of_isSome (by decide)⟩

/-- A failing step, for the third clause of PointerWrittenByMovesOnly and the second of
NarrationOfFourOpcodes. -/
theorem witness_failing_step :
    ∃ (s : State) (r : StepResult), (∃ t, stepTransaction s = .next (t, r) ∧ t.dp = 2) ∧ r ≠ .ok :=
  ⟨at_ [.jumpForward] 0 3 2 [], .unmatchedJumpForward, transaction_of_after (by decide), by decide⟩

/-- A step that answers a next state: ChannelFrame and RunParametersNeverChange, second clauses. -/
theorem witness_step_frames : ∃ s t : State, step s = .next t :=
  ⟨(at_ [.input] 0 1 0 []).supplyInput [0x41#8], next_of_isSome (by decide)⟩

/-- The last byte of the input. -/
theorem witness_InputStoresNextByte :
    ∃ (s : State) (b : Byte), s.dp < s.tapeLen ∧ Memory.wf s.tape = true ∧ s.input[s.inpos]? = some b :=
  ⟨(at_ [.input] 0 1 0 [(0, 9#8)]).supplyInput [0#8], 0#8, by decide⟩

/-- One past the last byte of the input. -/
theorem witness_InputExhaustedLatches :
    ∃ s : State, s.dp < s.tapeLen ∧ s.input.length ≤ s.inpos :=
  ⟨(at_ [.input] 0 1 0 []).consume.supplyInput [0x41#8], by decide⟩

theorem witness_OnlyTheNextInputByteMatters :
    ∃ (s : State) (bytes : List Byte), bytes[s.inpos]? = s.input[s.inpos]? ∧ bytes ≠ s.input :=
  ⟨(at_ [.input] 0 1 0 []).supplyInput [1#8, 2#8], [1#8], by decide⟩

/-- Both clauses. -/
theorem witness_JumpNotTaken :
    (∃ s : State, s.dp < s.tapeLen ∧ Memory.read s.tape s.dp ≠ 0) ∧
    (∃ s : State, s.dp < s.tapeLen ∧ Memory.read s.tape s.dp = 0) :=
  ⟨⟨at_ [.jumpForward] 0 1 0 [(0, 1#8)], by decide⟩, ⟨at_ [.jumpBack] 0 1 0 [], by decide⟩⟩

/-- 44_jumps.md R121's example, and a partner that is the last instruction. -/
theorem witness_JumpForwardTaken :
    (∃ (s : State) (j : Nat), s.dp < s.tapeLen ∧ Memory.read s.tape s.dp = 0 ∧
      scanForward s.program s.pc = some j ∧ j + 1 < s.imem.length) ∧
    (∃ (s : State) (j : Nat), s.dp < s.tapeLen ∧ Memory.read s.tape s.dp = 0 ∧
      scanForward s.program s.pc = some j ∧ j + 1 = s.imem.length) :=
  ⟨⟨at_ [.jumpForward, .increment, .jumpBack, .output] 0 1 0 [], 2, by decide⟩,
    ⟨at_ [.jumpForward, .jumpBack] 0 1 0 [], 1, by decide⟩⟩

/-- 44_jumps.md R125's example, and an empty loop body with every premise of the last clause. -/
theorem witness_JumpBackTaken :
    (∃ (s : State) (j : Nat), s.dp < s.tapeLen ∧ Memory.read s.tape s.dp ≠ 0 ∧
      scanBackward s.program s.pc = some j ∧ j + 1 < s.pc) ∧
    (∃ (s : State) (j : Nat), s.dp < s.tapeLen ∧ Memory.read s.tape s.dp ≠ 0 ∧
      scanBackward s.program s.pc = some j ∧ j + 1 = s.pc ∧ s.status = .running ∧
      s.fetch = some .jumpBack) :=
  ⟨⟨at_ [.increment, .jumpForward, .decrement, .jumpBack] 3 1 0 [(0, 2#8)], 1, by decide⟩,
    ⟨at_ [.increment, .jumpForward, .jumpBack] 2 1 0 [(0, 1#8)], 1, by decide⟩⟩

/-- Both clauses: the last instruction, and index 0. -/
theorem witness_UnmatchedJumpLatches :
    (∃ s : State, s.dp < s.tapeLen ∧ Memory.read s.tape s.dp = 0 ∧ scanForward s.program s.pc = none) ∧
    (∃ s : State, s.dp < s.tapeLen ∧ Memory.read s.tape s.dp ≠ 0 ∧ scanBackward s.program s.pc = none) :=
  ⟨⟨at_ [.jumpBack, .jumpForward] 1 1 0 [], by decide⟩, ⟨at_ [.jumpBack] 0 1 0 [(0, 1#8)], by decide⟩⟩

/-- Both clauses, on V-J6b. -/
theorem witness_MatchingIsMutual :
    ∃ (program : List Instr) (p q : Nat), program[p]? = some .jumpForward ∧
      scanForward program p = some q ∧ program[q]? = some .jumpBack ∧ scanBackward program q = some p :=
  ⟨[.jumpBack, .jumpForward, .jumpBack], 1, 2, by decide⟩

theorem witness_ConstructIsReset :
    (∃ n : Nat, 1 ≤ n) ∧ (∃ s : State, s.tapeLen = 0) := ⟨⟨1, by decide⟩, ⟨at_ [] 0 0 0 [], by decide⟩⟩

/-- A good state in mid-run: a seeded tape, some output, one byte consumed. -/
def goodState : State :=
  { (at_ [.input, .jumpForward, .output, .jumpBack] 2 3 2 [(0, 1#8), (2, 200#8)]).supplyInput [200#8] with
    inpos := 1, output := [0x41#21, 0xFFFD#21], narration := [.moveLeft] }

theorem witness_StepKeepsInvariant : ∃ s : State, s.Inv ∧ ∃ t, step s = .next t :=
  ⟨goodState, inv_of_checks (by decide), next_of_isSome (by decide)⟩

theorem witness_GoodStatesAlwaysStep : ∃ s : State, s.Inv ∧ s.status = .running ∧ s.pc < s.instrCount :=
  ⟨goodState, inv_of_checks (by decide), rfl, by decide⟩

/-- P7's source text. -/
theorem witness_BootedRunsStayGood :
    ∃ (source : List Byte) (text : List Char) (n : Nat),
      utf8Decode source = some text ∧ 1 ≤ n ∧ load defaultTokens text = [2#3] :=
  ⟨[0x70#8, 0x73#8, 0x70#8, 0x73#8, 0x70#8], ['p', 's', 'p', 's', 'p'], 1, by decide⟩

theorem witness_FaultIsLatched : ∃ s : State, 1 ≤ s.tapeLen ∧ s.status ≠ .running :=
  ⟨(at_ [.increment] 0 1 0 []).latch .faultUnmatchedBack, by decide⟩

theorem witness_EndOfRun :
    (∃ s : State, 1 ≤ s.tapeLen ∧ s.Final) ∧
    (∃ s : State, s.EndedBadly ∧ ∃ t : State, Host.Core.run Sys2Proof.core 0 s = .next t) :=
  ⟨⟨at_ [.increment] 1 1 0 [], by decide⟩,
    ⟨(at_ [.increment] 0 1 0 []).latch .faultUnmatchedBack, by decide, _, rfl⟩⟩

/-- A loop that ends with its budget unspent, and one that is cut off. -/
theorem witness_HostLoopIsARun :
    (∃ s : State, 1 ≤ s.tapeLen ∧ ∃ p, hostLoop 3 s = .next p ∧ p.2 = 1) ∧
    (∃ s : State, 1 ≤ s.tapeLen ∧ ∃ p, hostLoop 1 s = .next p ∧ p.2 = 1) := by
  have read {o : Host.Outcome (State × Nat) Fault Refusal} {n : Nat} (h : (nextOf o).map Prod.snd = some n) :
      ∃ p, o = .next p ∧ p.2 = n := by
    unfold nextOf at h
    split at h
    · cases h; exact ⟨_, rfl, rfl⟩
    · cases h
    · cases h
  exact ⟨⟨at_ [.increment] 0 1 0 [], by decide, read (by decide)⟩,
    ⟨at_ [.increment, .increment] 0 1 0 [], by decide, read (by decide)⟩⟩

theorem witness_DebugHasNoEffect :
    ∃ s s' : State, Claims.withoutDebug s = Claims.withoutDebug s' ∧ s ≠ s' :=
  ⟨at_ [.increment] 0 1 0 [], (at_ [.increment] 0 1 0 []).setDebug true, by decide⟩

/-- The first address past the tape. -/
theorem witness_PointerOffTapeStops : ∃ s : State, s.tapeLen ≤ s.dp := ⟨at_ [] 0 2 2 [], by decide⟩

end Sys2Proof.Tests
end

/-! PROOFS. Who writes the data pointer and the tape (10_state.md R14, R15). -/

namespace Sys2Proof.Machine

/-! ### The pointer and the tape across one instruction -/

theorem rightOf_lt {n : Nat} (hn : 0 < n) (p : Nat) : rightOf n p < n := Nat.mod_lt _ hn

theorem leftOf_lt {n p : Nat} (hp : p < n) : leftOf n p < n := by
  unfold leftOf
  split <;> omega

/-- A next state of `exec` moves the pointer, or stores to the current cell, or does neither. -/
theorem exec_pointer_tape_cases {i : Instr} {s t : State} (h : exec i s = .next t) :
    s.dp < s.tapeLen ∧ t.tapeLen = s.tapeLen ∧
      ((i = .moveRight ∧ t.dp = rightOf s.tapeLen s.dp ∧ t.tape = s.tape) ∨
       (i = .moveLeft ∧ t.dp = leftOf s.tapeLen s.dp ∧ t.tape = s.tape) ∨
       ((i = .increment ∨ i = .decrement ∨ i = .input) ∧ t.dp = s.dp ∧
         ∃ v, t.tape = Memory.write s.tape s.dp v) ∨
       (t.dp = s.dp ∧ t.tape = s.tape)) := by
  cases i with
  | moveRight =>
    obtain ⟨hd, rfl⟩ := execMoveRight_next h
    exact ⟨hd, rfl, .inl ⟨rfl, rfl, rfl⟩⟩
  | moveLeft =>
    obtain ⟨hd, rfl⟩ := execMoveLeft_next h
    exact ⟨hd, rfl, .inr (.inl ⟨rfl, rfl, rfl⟩)⟩
  | increment =>
    obtain ⟨hd, rfl⟩ := execIncrement_next h
    exact ⟨hd, rfl, .inr (.inr (.inl ⟨by simp, rfl, _, rfl⟩))⟩
  | decrement =>
    obtain ⟨hd, rfl⟩ := execDecrement_next h
    exact ⟨hd, rfl, .inr (.inr (.inl ⟨by simp, rfl, _, rfl⟩))⟩
  | jumpForward =>
    obtain ⟨hd, ⟨-, rfl⟩ | ⟨j, -, -, rfl⟩ | ⟨-, -, rfl⟩⟩ := execJumpForward_next h <;>
      exact ⟨hd, rfl, .inr (.inr (.inr ⟨rfl, rfl⟩))⟩
  | jumpBack =>
    obtain ⟨hd, ⟨-, rfl⟩ | ⟨j, -, -, rfl⟩ | ⟨-, -, rfl⟩⟩ := execJumpBack_next h <;>
      exact ⟨hd, rfl, .inr (.inr (.inr ⟨rfl, rfl⟩))⟩
  | output =>
    obtain ⟨hd, rfl⟩ := execOutput_next h
    exact ⟨hd, rfl, .inr (.inr (.inr ⟨rfl, rfl⟩))⟩
  | input =>
    obtain ⟨hd, ⟨-, rfl⟩ | ⟨b, -, rfl⟩⟩ := execInput_next h
    · exact ⟨hd, rfl, .inr (.inr (.inr ⟨rfl, rfl⟩))⟩
    · exact ⟨hd, rfl, .inr (.inr (.inl ⟨by simp, rfl, b, rfl⟩))⟩

theorem exec_tapeLen {i : Instr} {s t : State} (h : exec i s = .next t) : t.tapeLen = s.tapeLen :=
  (exec_pointer_tape_cases h).2.1

theorem exec_dp_of_not_move {i : Instr} {s t : State} (h : exec i s = .next t)
    (hr : i ≠ .moveRight) (hl : i ≠ .moveLeft) : t.dp = s.dp := by
  obtain ⟨-, -, ⟨hi, -, -⟩ | ⟨hi, -, -⟩ | ⟨-, hdp, -⟩ | ⟨hdp, -⟩⟩ := exec_pointer_tape_cases h
  · exact absurd hi hr
  · exact absurd hi hl
  · exact hdp
  · exact hdp

/-- The pointer an instruction leaves is a valid index, the one it moved to included. -/
theorem exec_dp_lt_tapeLen {i : Instr} {s t : State} (h : exec i s = .next t) : t.dp < t.tapeLen := by
  obtain ⟨hd, hlen, ⟨-, hdp, -⟩ | ⟨-, hdp, -⟩ | ⟨-, hdp, -⟩ | ⟨hdp, -⟩⟩ := exec_pointer_tape_cases h <;>
    rw [hdp, hlen]
  · exact rightOf_lt (Nat.zero_lt_of_lt hd) s.dp
  · exact leftOf_lt hd
  · exact hd
  · exact hd

theorem exec_read_of_frame {i : Instr} {s t : State} {a : Nat} (h : exec i s = .next t)
    (ha : (i ≠ .increment ∧ i ≠ .decrement ∧ i ≠ .input) ∨ a ≠ s.dp) :
    Memory.read t.tape a = Memory.read s.tape a := by
  obtain ⟨-, -, ⟨-, -, ht⟩ | ⟨-, -, ht⟩ | ⟨hi, -, v, ht⟩ | ⟨-, ht⟩⟩ := exec_pointer_tape_cases h <;> rw [ht]
  have hne : a ≠ s.dp := ha.resolve_left fun ⟨hinc, hdec, hin⟩ => by simp [hinc, hdec, hin] at hi
  exact Memory.read_write_other s.tape v hne

/-! ### A failing step -/

/-- A step's result is `Ok` exactly when it latches no fault and the machine was not done. -/
theorem StepResult.between_eq_ok_iff (s t : State) :
    StepResult.between s t = .ok ↔ t.status = .running ∧ s.isDone = false := by
  unfold StepResult.between
  cases t.status <;> simp [Status.fault?]

theorem State.isDone_of_fetch {s : State} {i : Instr} (h : s.fetch = some i) : s.isDone = false := by
  have hnone : s.fetch ≠ none := by simp [h]
  rwa [ne_eq, s.fetch_eq_none_iff, ← s.isDone_iff, Bool.not_eq_true] at hnone

/-- A move cannot fail: it leaves the fault latch as it was. -/
theorem exec_move_status {i : Instr} {s t : State} (h : exec i s = .next t)
    (hi : i = .moveRight ∨ i = .moveLeft) : t.status = s.status := by
  rcases hi with rfl | rfl
  · obtain ⟨-, rfl⟩ := execMoveRight_next h
    rfl
  · obtain ⟨-, rfl⟩ := execMoveLeft_next h
    rfl

/-- A failing step changes no state at all or ran an instruction that failed, and no move fails. -/
theorem stepTransaction_dp_of_not_ok {s t : State} {r : StepResult}
    (h : stepTransaction s = .next (t, r)) (hr : r ≠ .ok) : t.dp = s.dp := by
  obtain ⟨hstep, rfl⟩ := stepTransaction_next h
  obtain ⟨-, ⟨-, rfl⟩ | ⟨-, -, rfl⟩ | ⟨hrun, i, hfetch, hexec⟩⟩ := step_next hstep
  · rfl
  · rfl
  · have hmove : ¬ (i = .moveRight ∨ i = .moveLeft) := fun hi =>
      hr ((StepResult.between_eq_ok_iff s t).mpr
        ⟨(exec_move_status hexec hi).trans hrun, State.isDone_of_fetch hfetch⟩)
    exact exec_dp_of_not_move hexec (fun hi => hmove (.inl hi)) (fun hi => hmove (.inr hi))

/-! ### The statements -/

/-- Settles O15, from the one account of what an instruction does to the pointer and, for a failing step,
from the fact that a move never fails. -/
theorem pointerWrittenByMovesOnly : Obligations.PointerWrittenByMovesOnly :=
  ⟨fun _ _ _ => exec_dp_of_not_move, fun _ _ _ => exec_dp_lt_tapeLen,
    fun _ _ _ => stepTransaction_dp_of_not_ok, fun _ _ => rfl⟩

/-- Settles O19, from the one account of what an instruction does to the tape and from the memory's rule that a
write leaves every other address. -/
theorem tapeWrittenAtCurrentCellOnly : Obligations.TapeWrittenAtCurrentCellOnly :=
  ⟨fun _ _ _ _ => exec_read_of_frame, fun _ _ _ => exec_tapeLen, fun _ _ _ => ⟨rfl, rfl⟩⟩

end Sys2Proof.Machine

/-! PROOFS. Which tokens decode (30_encoding.md R52, R54), and what the loader makes of a source text written
as words and separators (R63 to R65). -/

namespace Sys2Proof

open Machine

/-! ### The token decoder -/

/-- `DecodeToken` answers an opcode on its one succeeding path only. -/
theorem decodeToken_eq_ok_iff (P : TokenParams) (t : List Char) (i : Instr) :
    decodeToken P t = .ok i ↔
      alternatesFrom P 0 t = true ∧ 3 ≤ t.length ∧ opcodeOfIndex (t.length - 3) = some i := by
  unfold decodeToken minTokenLen
  split
  next halt => simp [halt]
  next halt =>
    have halt : alternatesFrom P 0 t = true := by simpa using halt
    split
    next hlen =>
      simp only [reduceCtorEq, false_iff]
      omega
    next hlen =>
      have hlen : 3 ≤ t.length := by omega
      split <;> simp [*]

/-- R54: the index `length - 3` is one of the table's 0 to 7 exactly for the lengths 3 to 10. -/
theorem exists_decodeToken_ok_iff (P : TokenParams) (t : List Char) :
    (∃ i, decodeToken P t = .ok i) ↔
      alternatesFrom P 0 t = true ∧ 3 ≤ t.length ∧ t.length ≤ 10 := by
  have hindex : (∃ i, opcodeOfIndex (t.length - 3) = some i) ↔ t.length - 3 ≤ 7 := by
    rw [← Option.isSome_iff_exists, opcodeOfIndex_isSome_iff]
  simp only [decodeToken_eq_ok_iff, exists_and_left, hindex]
  exact and_congr_right fun _ => and_congr_right fun _ => by omega

/-! ### The entry of a token -/

/-- The loader's entry for a token is the encoding of the opcode the word contributes. -/
theorem entryOfToken_eq_map_encode (P : TokenParams) (w : List Char) :
    entryOfToken P w = (Claims.opcodeOf P w).map encode := by
  unfold entryOfToken Claims.opcodeOf
  cases decodeToken P w <;> rfl

@[simp] theorem opcodeOf_nil (P : TokenParams) : Claims.opcodeOf P [] = none := rfl

@[simp] theorem decodeWord_encode (i : Instr) : decodeWord (encode i) = i :=
  (Laws.Encoding.of_any i).2.1

theorem map_decodeWord_filterMap_entryOfToken (P : TokenParams) (ws : List (List Char)) :
    (ws.filterMap (entryOfToken P)).map decodeWord = ws.filterMap (Claims.opcodeOf P) := by
  simp [List.map_filterMap, entryOfToken_eq_map_encode, Function.comp_def]

/-- A word without an entry may be dropped before the entries are taken. -/
theorem filterMap_entryOfToken_filter (P : TokenParams) (ws : List (List Char)) :
    (ws.filter fun w => (Claims.opcodeOf P w).isSome).filterMap (entryOfToken P) =
      ws.filterMap (entryOfToken P) := by
  rw [List.filterMap_filter]
  refine List.filterMap_congr fun w _ => ?_
  cases h : Claims.opcodeOf P w <;> simp [entryOfToken_eq_map_encode, h]

/-! ### Splitting a text into tokens -/

/-- Characters that are no whitespace join the token being read. -/
theorem splitFrom_append_of_nonspace {w : List Char} (hw : ∀ c ∈ w, isAsciiSpace c = false)
    (acc rest : List Char) : splitFrom acc (w ++ rest) = splitFrom (w.reverse ++ acc) rest := by
  induction w generalizing acc with
  | nil => rfl
  | cons c w ih =>
    obtain ⟨hc, hw⟩ := List.forall_mem_cons.mp hw
    simp [splitFrom, hc, ih hw]

/-- Whitespace between tokens is skipped. -/
theorem splitTokens_append_of_space {g : List Char} (hg : ∀ c ∈ g, isAsciiSpace c = true)
    (rest : List Char) : splitTokens (g ++ rest) = splitTokens rest := by
  induction g with
  | nil => rfl
  | cons c g ih =>
    obtain ⟨hc, hg⟩ := List.forall_mem_cons.mp hg
    simpa [splitTokens, splitFrom, hc] using ih hg

/-- A word ends at the separator after it and is the first token. -/
theorem splitTokens_word_gap {w g : List Char} (hw : Claims.IsWord w) (hg : Claims.IsGap g)
    (rest : List Char) : splitTokens (w ++ g ++ rest) = w :: splitTokens rest := by
  obtain ⟨hne, hword⟩ := hw
  obtain ⟨hgne, hspace⟩ := hg
  obtain ⟨c, g, rfl⟩ := List.exists_cons_of_ne_nil hgne
  obtain ⟨hc, hg⟩ := List.forall_mem_cons.mp hspace
  have hskip : splitFrom [] (g ++ rest) = splitTokens rest := splitTokens_append_of_space hg rest
  rw [splitTokens, List.append_assoc, splitFrom_append_of_nonspace hword]
  simp [splitFrom, hc, hne, hskip]

/-- A last word with nothing after it is the one token, or none when it is empty. -/
theorem splitTokens_of_nonspace {w : List Char} (hw : ∀ c ∈ w, isAsciiSpace c = false) :
    splitTokens w = if w = [] then [] else [w] := by
  have h := splitFrom_append_of_nonspace hw [] []
  simpa [splitTokens, splitFrom] using h

/-- R63: the tokens of a text written as words and separators are its words, with the last one if there is one. -/
theorem splitTokens_textOf {lead : List Char} {body : List (List Char × List Char)} {last : List Char}
    (hlead : ∀ c ∈ lead, isAsciiSpace c = true)
    (hbody : ∀ p ∈ body, Claims.IsWord p.1 ∧ Claims.IsGap p.2)
    (hlast : ∀ c ∈ last, isAsciiSpace c = false) :
    splitTokens (Claims.textOf lead body ++ last) =
      body.map Prod.fst ++ if last = [] then [] else [last] := by
  rw [Claims.textOf, List.append_assoc, splitTokens_append_of_space hlead]
  induction body with
  | nil => exact splitTokens_of_nonspace hlast
  | cons p body ih =>
    obtain ⟨⟨hword, hgap⟩, hbody⟩ := List.forall_mem_cons.mp hbody
    rw [List.flatMap_cons, List.append_assoc, splitTokens_word_gap hword hgap, ih hbody,
      List.map_cons, List.cons_append]

/-- Every text is leading whitespace, words each with the separator after it, and a last word. -/
theorem exists_textOf_append (text : List Char) :
    ∃ lead body last, (∀ c ∈ lead, isAsciiSpace c = true) ∧
      (∀ p ∈ body, Claims.IsWord p.1 ∧ Claims.IsGap p.2) ∧
      (∀ c ∈ last, isAsciiSpace c = false) ∧ text = Claims.textOf lead body ++ last := by
  induction text with
  | nil => exact ⟨[], [], [], by simp, by simp, by simp, rfl⟩
  | cons c text ih =>
    obtain ⟨lead, body, last, hlead, hbody, hlast, rfl⟩ := ih
    cases hc : isAsciiSpace c with
    | true => exact ⟨c :: lead, body, last, List.forall_mem_cons.mpr ⟨hc, hlead⟩, hbody, hlast, rfl⟩
    | false =>
      cases lead with
      | cons d lead =>
        -- whitespace follows: `c` is a word of its own
        refine ⟨[], ([c], d :: lead) :: body, last, by simp, ?_, hlast, by simp [Claims.textOf]⟩
        exact List.forall_mem_cons.mpr ⟨⟨⟨by simp, by simpa using hc⟩, by simp, hlead⟩, hbody⟩
      | nil =>
        cases body with
        | nil => exact ⟨[], [], c :: last, hlead, hbody, List.forall_mem_cons.mpr ⟨hc, hlast⟩, rfl⟩
        | cons p body =>
          -- a word follows: `c` becomes its first character
          obtain ⟨⟨⟨-, hword⟩, hgap⟩, hbody⟩ := List.forall_mem_cons.mp hbody
          refine ⟨[], (c :: p.1, p.2) :: body, last, hlead, ?_, hlast, by simp [Claims.textOf]⟩
          exact List.forall_mem_cons.mpr
            ⟨⟨⟨by simp, List.forall_mem_cons.mpr ⟨hc, hword⟩⟩, hgap⟩, hbody⟩

/-! ### Loading -/

/-- The program of such a text is the entries of its words; an empty last word has none. -/
theorem load_textOf (P : TokenParams) {lead : List Char} {body : List (List Char × List Char)}
    {last : List Char} (hlead : ∀ c ∈ lead, isAsciiSpace c = true)
    (hbody : ∀ p ∈ body, Claims.IsWord p.1 ∧ Claims.IsGap p.2)
    (hlast : ∀ c ∈ last, isAsciiSpace c = false) :
    load P (Claims.textOf lead body ++ last) =
      (body.map Prod.fst ++ [last]).filterMap (entryOfToken P) := by
  rw [load, splitTokens_textOf hlead hbody hlast]
  split
  case isTrue h => simp [h, entryOfToken_eq_map_encode]
  case isFalse => rfl

/-- The program does not change when a last word that does not decode is cut off. -/
theorem filterMap_entryOfToken_last (P : TokenParams) (last : List Char) :
    [if (Claims.opcodeOf P last).isSome then last else []].filterMap (entryOfToken P) =
      [last].filterMap (entryOfToken P) := by
  cases h : Claims.opcodeOf P last <;> simp [entryOfToken_eq_map_encode, h]

/-! ### The statements -/

/-- Settles O2, from the decoder's one succeeding path and the position rule read character by character. -/
theorem decoderAcceptsExactlyAlternatingTokens : Obligations.DecoderAcceptsExactlyAlternatingTokens := by
  refine fun P token => ⟨?_, fun i h => ((decodeToken_eq_ok_iff P token i).mp h).2.2⟩
  simp [exists_decodeToken_ok_iff, alternatesFrom_iff, TokenParams.charAt]

/-- Settles O4: the tokens of the text are its words, each contributing the entry of its opcode, and a text is
taken apart into words one character at a time. -/
theorem loadKeepsDecodedWordsInOrder : Obligations.LoadKeepsDecodedWordsInOrder := by
  refine ⟨fun P lead body last hlead hbody hlast => ?_, exists_textOf_append⟩
  rw [load_textOf P hlead hbody hlast, map_decodeWord_filterMap_entryOfToken]

/-- Settles O5: both texts are words and separators, and their words have the same entries. -/
theorem junkWordsChangeNothing : Obligations.JunkWordsChangeNothing := by
  intro P lead body last hlead hbody hlast
  have hkept : ∀ p ∈ body.filter (fun p => (Claims.opcodeOf P p.1).isSome),
      Claims.IsWord p.1 ∧ Claims.IsGap p.2 := fun p hp => hbody p (List.mem_of_mem_filter hp)
  have hlast' : ∀ c ∈ (if (Claims.opcodeOf P last).isSome then last else []),
      isAsciiSpace c = false := by
    split
    · exact hlast
    · simp
  have hmap : (body.filter fun p => (Claims.opcodeOf P p.1).isSome).map Prod.fst =
      (body.map Prod.fst).filter fun w => (Claims.opcodeOf P w).isSome := by
    rw [List.filter_map]; rfl
  rw [load_textOf P hlead hbody hlast, load_textOf P (by simp) hkept hlast', hmap,
    List.filterMap_append, List.filterMap_append, filterMap_entryOfToken_filter,
    filterMap_entryOfToken_last]

end Sys2Proof

/-! PROOFS. Where a step leaves the program counter (40_step_cycle.md R74), and the step of a done machine
(R76). -/

namespace Sys2Proof.Machine

/-! ### The counter and the fault latch across one instruction -/

/-- What executing an instruction in `s` makes of the counter and the fault latch in `t`: fall through, land
one past the matched bracket, or one of the three faults. -/
inductive ExecCounter (s t : State) : Instr → Prop
  | fallsThrough {i : Instr} (hforward : ¬(i = .jumpForward ∧ s.cell = 0#8))
      (hback : ¬(i = .jumpBack ∧ s.cell ≠ 0#8)) (hpc : t.pc = s.pc + 1) (hstatus : t.status = s.status) :
      ExecCounter s t i
  | landsForward {j : Nat} (hcell : s.cell = 0#8) (hscan : scanForward s.program s.pc = some j)
      (hpc : t.pc = j + 1) (hstatus : t.status = s.status) : ExecCounter s t .jumpForward
  | landsBack {j : Nat} (hcell : s.cell ≠ 0#8) (hscan : scanBackward s.program s.pc = some j)
      (hpc : t.pc = j + 1) (hstatus : t.status = s.status) : ExecCounter s t .jumpBack
  | unmatchedForward (hcell : s.cell = 0#8) (hscan : scanForward s.program s.pc = none)
      (hstatus : t.status = .faultUnmatchedForward) : ExecCounter s t .jumpForward
  | unmatchedBack (hcell : s.cell ≠ 0#8) (hscan : scanBackward s.program s.pc = none)
      (hstatus : t.status = .faultUnmatchedBack) : ExecCounter s t .jumpBack
  | inputExhausted (hinput : s.nextInput = none) (hpc : t.pc = s.pc)
      (hstatus : t.status = .faultInputExhausted) : ExecCounter s t .input

theorem exec_counter {i : Instr} {s t : State} (h : exec i s = .next t) : ExecCounter s t i := by
  cases i with
  | moveRight =>
    obtain ⟨-, rfl⟩ := execMoveRight_next h
    exact .fallsThrough (by simp) (by simp) rfl rfl
  | moveLeft =>
    obtain ⟨-, rfl⟩ := execMoveLeft_next h
    exact .fallsThrough (by simp) (by simp) rfl rfl
  | increment =>
    obtain ⟨-, rfl⟩ := execIncrement_next h
    exact .fallsThrough (by simp) (by simp) rfl rfl
  | decrement =>
    obtain ⟨-, rfl⟩ := execDecrement_next h
    exact .fallsThrough (by simp) (by simp) rfl rfl
  | jumpForward =>
    obtain ⟨-, ⟨hcell, rfl⟩ | ⟨j, hcell, hscan, rfl⟩ | ⟨hcell, hscan, rfl⟩⟩ := execJumpForward_next h
    · exact .fallsThrough (by simp [hcell]) (by simp) rfl rfl
    · exact .landsForward hcell hscan rfl rfl
    · exact .unmatchedForward hcell hscan rfl
  | jumpBack =>
    obtain ⟨-, ⟨hcell, rfl⟩ | ⟨j, hcell, hscan, rfl⟩ | ⟨hcell, hscan, rfl⟩⟩ := execJumpBack_next h
    · exact .fallsThrough (by simp) (by simp [hcell]) rfl rfl
    · exact .landsBack hcell hscan rfl rfl
    · exact .unmatchedBack hcell hscan rfl
  | output =>
    obtain ⟨-, rfl⟩ := execOutput_next h
    exact .fallsThrough (by simp) (by simp) rfl rfl
  | input =>
    obtain ⟨-, ⟨hinput, rfl⟩ | ⟨b, -, rfl⟩⟩ := execInput_next h
    · exact .inputExhausted hinput rfl rfl
    · exact .fallsThrough (by simp) (by simp) rfl rfl

/-- While no fault is latched, a taken jump has found its bracket and lands one past it, and everything else
falls through. -/
theorem ExecCounter.pc_of_running {i : Instr} {s t : State} (h : ExecCounter s t i)
    (ht : t.status = .running) :
    (i = .jumpForward → s.cell = 0#8 → ∃ j, scanForward s.program s.pc = some j ∧ t.pc = j + 1) ∧
    (i = .jumpBack → s.cell ≠ 0#8 → ∃ j, scanBackward s.program s.pc = some j ∧ t.pc = j + 1) ∧
    (¬(i = .jumpForward ∧ s.cell = 0#8) → ¬(i = .jumpBack ∧ s.cell ≠ 0#8) → t.pc = s.pc + 1) := by
  cases h with
  | fallsThrough hforward hback hpc _ =>
    exact ⟨fun hi hcell => (hforward ⟨hi, hcell⟩).elim, fun hi hcell => (hback ⟨hi, hcell⟩).elim,
      fun _ _ => hpc⟩
  | landsForward hcell hscan hpc _ =>
    exact ⟨fun _ _ => ⟨_, hscan, hpc⟩, nofun, fun hnot => (hnot ⟨rfl, hcell⟩).elim⟩
  | landsBack hcell hscan hpc _ =>
    exact ⟨nofun, fun _ _ => ⟨_, hscan, hpc⟩, fun _ hnot => (hnot ⟨rfl, hcell⟩).elim⟩
  | unmatchedForward _ _ hstatus => simp [hstatus] at ht
  | unmatchedBack _ _ hstatus => simp [hstatus] at ht
  | inputExhausted _ _ hstatus => simp [hstatus] at ht

/-- From a running state, only an Input without a byte latches `InputExhausted`, and it does not advance. -/
theorem ExecCounter.pc_of_exhausted {i : Instr} {s t : State} (h : ExecCounter s t i)
    (hs : s.status = .running) (ht : t.status = .faultInputExhausted) : t.pc = s.pc := by
  cases h with
  | fallsThrough _ _ _ hstatus => simp [hstatus, hs] at ht
  | landsForward _ _ _ hstatus => simp [hstatus, hs] at ht
  | landsBack _ _ _ hstatus => simp [hstatus, hs] at ht
  | unmatchedForward _ _ hstatus => simp [hstatus] at ht
  | unmatchedBack _ _ hstatus => simp [hstatus] at ht
  | inputExhausted _ hpc _ => exact hpc

/-! ### The result of a step -/

theorem StepResult.between_eq_programAlreadyDone_iff (s t : State) :
    StepResult.between s t = .programAlreadyDone ↔ t.status = .running ∧ s.isDone = true := by
  unfold StepResult.between
  cases t.status <;> simp [Status.fault?]

theorem StepResult.between_eq_inputExhausted_iff (s t : State) :
    StepResult.between s t = .inputExhausted ↔ t.status = .faultInputExhausted := by
  unfold StepResult.between
  cases t.status <;> simp [Status.fault?, ite_eq_iff]

theorem State.isDone_iff_fetch_eq_none (s : State) : s.isDone = true ↔ s.fetch = none :=
  s.isDone_iff.trans s.fetch_eq_none_iff.symm

theorem step_of_isDone {s : State} (hlen : s.tapeLen ≠ 0) (hdone : s.isDone = true) : step s = .next s := by
  simp [step, State.cycle, hlen, s.isDone_iff_fetch_eq_none.mp hdone]

/-! ### The statements -/

/-- Settles O9: a running machine is done and its step changes nothing, or its step executes one instruction
and the result `Ok` or `InputExhausted` is read from the fault latch. -/
theorem counterAdvance : Obligations.CounterAdvance := by
  intro s t r hrun h
  obtain ⟨hstep, rfl⟩ := stepTransaction_next h
  simp only [StepResult.between_eq_ok_iff, StepResult.between_eq_programAlreadyDone_iff,
    StepResult.between_eq_inputExhausted_iff]
  obtain ⟨-, ⟨hlatched, -⟩ | ⟨-, hfetch, ht⟩ | ⟨-, i, hfetch, hexec⟩⟩ := step_next hstep
  · exact absurd hrun hlatched
  · have hdone : s.isDone = true := s.isDone_iff_fetch_eq_none.mpr hfetch
    exact ⟨fun ⟨_, hnot⟩ => by simp [hdone] at hnot, fun _ => congrArg State.pc ht⟩
  · have hcounter := exec_counter hexec
    simp only [hfetch, Option.some.injEq, State.isDone_of_fetch hfetch]
    refine ⟨fun ⟨ht, _⟩ => hcounter.pc_of_running ht, ?_⟩
    rintro (⟨-, hdone⟩ | ht)
    · cases hdone
    · exact hcounter.pc_of_exhausted hrun ht

/-- Settles O8: the invariant bounds the counter of a running machine, and a done machine fetches nothing. -/
theorem isDoneAndStepOfDoneMachine : Obligations.IsDoneAndStepOfDoneMachine := by
  refine ⟨State.isDone_iff, fun n => (State.isDone_iff _).mpr le_rfl, ?_, ?_⟩
  · intro s hinv hrun
    obtain ⟨-, -, -, -, hpc, -⟩ := hinv
    have hle : s.pc ≤ s.imem.length := hpc (.inl hrun)
    exact s.isDone_iff.trans ⟨hle.antisymm, ge_of_eq⟩
  · intro s hlen hrun hdone
    have hstep : step s = .next s := step_of_isDone (Nat.one_le_iff_ne_zero.mp hlen) hdone
    have hresult := (StepResult.between_eq_programAlreadyDone_iff s s).mpr ⟨hrun, hdone⟩
    exact ⟨hstep, hresult ▸ stepTransaction_of_step hstep⟩

end Sys2Proof.Machine

/-! PROOFS. The laws of cell arithmetic (42_cell_arith.md R102). -/

namespace Sys2Proof.Machine

/-! ### A byte added to the current cell -/

/-- From `s` to `t` the byte `c` has been added to the current cell: the pointer and every other cell are as
they were, and the tape is still canonical. -/
structure CellAdded (c : Byte) (s t : State) : Prop where
  dp : t.dp = s.dp
  tapeLen : t.tapeLen = s.tapeLen
  wf : Memory.wf t.tape = true
  read_dp : Memory.read t.tape s.dp = Memory.read s.tape s.dp + c
  read_other {a : Nat} (ha : a ≠ s.dp) : Memory.read t.tape a = Memory.read s.tape a

theorem CellAdded.refl {s : State} (hwf : Memory.wf s.tape = true) : CellAdded 0#8 s s :=
  ⟨rfl, rfl, hwf, (BitVec.add_zero _).symm, fun _ => rfl⟩

theorem CellAdded.trans {c d : Byte} {s t u : State} (hst : CellAdded c s t) (htu : CellAdded d t u) :
    CellAdded (c + d) s u where
  dp := htu.dp.trans hst.dp
  tapeLen := htu.tapeLen.trans hst.tapeLen
  wf := htu.wf
  read_dp := by rw [← BitVec.add_assoc, ← hst.read_dp, ← hst.dp, htu.read_dp]
  read_other ha := (htu.read_other (hst.dp ▸ ha)).trans (hst.read_other ha)

/-- Adding 0 leaves every cell, the current one included. -/
theorem CellAdded.read_of_zero {s t : State} (h : CellAdded 0#8 s t) (a : Nat) :
    Memory.read t.tape a = Memory.read s.tape a := by
  by_cases ha : a = s.dp
  · rw [ha, h.read_dp, BitVec.add_zero]
  · exact h.read_other ha

theorem cellAdded_setCell {s : State} (hwf : Memory.wf s.tape = true) (c : Byte) (i : Instr) :
    CellAdded c s ((s.setCell (s.cell + c)).advance.narrate i) where
  dp := rfl
  tapeLen := rfl
  wf := Memory.write_wf hwf s.dp _
  read_dp := Memory.read_write_same hwf s.dp _
  read_other ha := Memory.read_write_other s.tape _ ha

/-! ### The instructions that add a byte -/

/-- Wherever the pointer is on a canonical tape, the instruction completes and adds `c` to the current cell. -/
def AddsToCell (i : Instr) (c : Byte) : Prop :=
  ∀ s : State, s.dp < s.tapeLen → Memory.wf s.tape = true → ∃ t, exec i s = .next t ∧ CellAdded c s t

theorem increment_addsToCell : AddsToCell .increment 1#8 := fun _ hd hwf =>
  ⟨_, State.onTape_of_lt hd _, cellAdded_setCell hwf 1#8 .increment⟩

theorem decrement_addsToCell : AddsToCell .decrement 255#8 := fun _ hd hwf =>
  ⟨_, State.onTape_of_lt hd _, cellAdded_setCell hwf 255#8 .decrement⟩

/-- Two instructions that add opposite bytes undo each other. -/
theorem AddsToCell.exec_exec_restores {i j : Instr} {c d : Byte} (hi : AddsToCell i c) (hj : AddsToCell j d)
    (hcd : c + d = 0#8) {s : State} (hd : s.dp < s.tapeLen) (hwf : Memory.wf s.tape = true) :
    ∃ t u, exec i s = .next t ∧ exec j t = .next u ∧
      ∀ a, Memory.read u.tape a = Memory.read s.tape a := by
  obtain ⟨t, hexec, hst⟩ := hi s hd hwf
  obtain ⟨u, hexec', htu⟩ := hj t (by rwa [hst.dp, hst.tapeLen]) hst.wf
  exact ⟨t, u, hexec, hexec', (hcd ▸ hst.trans htu).read_of_zero⟩

theorem AddsToCell.repeatExec {i : Instr} {c : Byte} (hi : AddsToCell i c) (k : Nat) {s : State}
    (hd : s.dp < s.tapeLen) (hwf : Memory.wf s.tape = true) :
    ∃ t, Claims.repeatExec k i s = .next t ∧ CellAdded (c * BitVec.ofNat 8 k) s t := by
  induction k generalizing s with
  | zero => exact ⟨s, rfl, by simpa using CellAdded.refl hwf⟩
  | succ k ih =>
    obtain ⟨t, hexec, hst⟩ := hi s hd hwf
    obtain ⟨u, hrepeat, htu⟩ := ih (by rwa [hst.dp, hst.tapeLen]) hst.wf
    have hsum : c + c * BitVec.ofNat 8 k = c * BitVec.ofNat 8 (k + 1) := by
      rw [BitVec.ofNat_add, BitVec.mul_add, BitVec.mul_one, BitVec.add_comm]
    exact ⟨u, by simp [Claims.repeatExec, hexec, hrepeat], hsum ▸ hst.trans htu⟩

/-- As many additions of one byte as a multiple of 256 come to nothing. -/
theorem mul_ofNat_of_dvd {k : Nat} (hk : 256 ∣ k) (c : Byte) : c * BitVec.ofNat 8 k = 0#8 := by
  have hzero : BitVec.ofNat 8 k = 0#8 := BitVec.eq_of_toNat_eq (by simpa using Nat.mod_eq_zero_of_dvd hk)
  rw [hzero, BitVec.mul_zero]

/-- `k` additions of 255 subtract `k`, modulo 256. -/
theorem toNat_add_neg_one_mul (v : Byte) (k : Nat) :
    ((v + 255#8 * BitVec.ofNat 8 k).toNat : Int) = ((v.toNat : Int) - k) % 256 := by
  simp only [BitVec.toNat_add, BitVec.toNat_mul, BitVec.toNat_ofNat, Nat.reducePow, Nat.reduceMod]
  omega

/-! ### The statement -/

/-- Settles O18: Increment adds 1 and Decrement 255 to the one current cell, and the bytes added along a run
sum up modulo 256. -/
theorem cellLaws : Obligations.CellLaws := by
  refine ⟨fun s hd hwf => ⟨?_, ?_⟩, fun s k hd hwf => ⟨?_, ?_⟩, fun s t _ _ hexec => ⟨?_, ?_⟩⟩
  · exact increment_addsToCell.exec_exec_restores decrement_addsToCell rfl hd hwf
  · exact decrement_addsToCell.exec_exec_restores increment_addsToCell rfl hd hwf
  · obtain ⟨t, hrepeat, hst⟩ := increment_addsToCell.repeatExec k hd hwf
    refine ⟨t, hrepeat, ?_, fun hk => (mul_ofNat_of_dvd hk _ ▸ hst).read_of_zero s.dp⟩
    simp [hst.read_dp]
  · obtain ⟨t, hrepeat, hst⟩ := decrement_addsToCell.repeatExec k hd hwf
    refine ⟨t, hrepeat, ?_, fun hk => (mul_ofNat_of_dvd hk _ ▸ hst).read_of_zero s.dp⟩
    rw [hst.read_dp, toNat_add_neg_one_mul]
  · exact Nat.le_of_lt_succ (Memory.read t.tape s.dp).isLt
  · exact fun a ha => exec_read_of_frame hexec (.inr ha)

end Sys2Proof.Machine

/-! PROOFS. Where a taken jump with a partner lands (44_jumps.md R121, R125), and the empty loop body that
never ends. -/

namespace Sys2Proof.Machine

/-! ### A taken jump with a partner -/

theorem execJumpForward_of_scan {s : State} {j : Nat} (hd : s.dp < s.tapeLen) (hcell : s.cell = 0#8)
    (hscan : scanForward s.program s.pc = some j) : exec .jumpForward s = .next (s.setPc (j + 1)) := by
  have htaken : s.cellZero = true := s.cellZero_iff.mpr hcell
  calc exec .jumpForward s
      = .next (s.jump s.cellZero (scanForward s.program s.pc) .faultUnmatchedForward) :=
        State.onTape_of_lt hd _
    _ = .next (s.setPc (j + 1)) := by rw [htaken, hscan]; rfl

theorem execJumpBack_of_scan {s : State} {j : Nat} (hd : s.dp < s.tapeLen) (hcell : s.cell ≠ 0#8)
    (hscan : scanBackward s.program s.pc = some j) : exec .jumpBack s = .next (s.setPc (j + 1)) := by
  have htaken : s.cellNonzero = true := s.cellNonzero_iff.mpr hcell
  calc exec .jumpBack s
      = .next (s.jump s.cellNonzero (scanBackward s.program s.pc) .faultUnmatchedBack) :=
        State.onTape_of_lt hd _
    _ = .next (s.setPc (j + 1)) := by rw [htaken, hscan]; rfl

@[simp] theorem State.setPc_self (s : State) : s.setPc s.pc = s := rfl

@[simp] theorem State.program_length (s : State) : s.program.length = s.imem.length := List.length_map _

/-! ### Running a state that steps to itself -/

theorem step_of_fetch {s : State} {i : Instr} (hlen : s.tapeLen ≠ 0) (hrun : s.status = .running)
    (hfetch : s.fetch = some i) : step s = exec i s := by
  simp [step, State.cycle, hlen, hrun, hfetch]

/-- A state that steps to itself is where every run from it ends. -/
theorem run_of_step_self {s : State} (h : step s = .next s) (k : Nat) :
    Host.Core.run Sys2Proof.core k s = .next s := by
  have hcore : Sys2Proof.core.step s = .next s := h
  induction k with
  | zero => rfl
  | succ k ih => simp only [Host.Core.run, hcore, ih]

/-! ### The statements -/

/-- Settles O26, from the taken jump's next state and from where a forward match can lie. -/
theorem jumpForwardTaken : Obligations.JumpForwardTaken := by
  intro s j hd hcell hscan
  obtain ⟨hlater, hpartner⟩ := scanForward_some hscan
  obtain ⟨hlt, -⟩ := List.getElem?_eq_some_iff.mp hpartner
  rw [s.program_length] at hlt
  exact ⟨execJumpForward_of_scan hd hcell hscan, by omega, hlt, hpartner, by omega⟩

/-- Settles O27, from the taken jump's next state and from where a backward match can lie; with an empty loop
body that next state is the state itself. -/
theorem jumpBackTaken : Obligations.JumpBackTaken := by
  intro s j hd hcell hscan
  obtain ⟨hearlier, hpartner⟩ := scanBackward_some hscan
  have hexec := execJumpBack_of_scan hd hcell hscan
  refine ⟨hexec, by omega, hearlier, hpartner, by omega, fun hempty hrun hfetch k => ?_⟩
  rw [hempty, s.setPc_self] at hexec
  exact run_of_step_self ((step_of_fetch (Nat.ne_zero_of_lt hd) hrun hfetch).trans hexec) k

end Sys2Proof.Machine

/-! PROOFS. The encodings read back (30_encoding.md sections 3 and 5), and the source bytes below 128. -/

namespace Sys2Proof

open Machine

/-! ### Both encodings read back -/

/-- A 3-bit entry is determined by the instruction it holds: the table has eight different rows. -/
theorem encode_decodeWord (w : OpWord) : encode (decodeWord w) = w := by
  revert w; decide

theorem decodeWord_eq_iff (w : OpWord) (i : Instr) : decodeWord w = i ↔ w = encode i := by
  constructor
  · rintro rfl
    exact (encode_decodeWord w).symm
  · rintro rfl
    exact decodeWord_encode i

/-- Two indices of the table with the same opcode are the same. -/
theorem eq_toNat_encode_of_opcodeOfIndex {n : Nat} {i : Instr} (h : opcodeOfIndex n = some i) :
    n = (encode i).toNat := by
  have hn : n ≤ 7 := (opcodeOfIndex_isSome_iff n).mp (by simp [h])
  have hw : (BitVec.ofNat 3 n).toNat = n := by simp; omega
  rw [← hw, opcodeOfIndex_toNat, Option.some.injEq, decodeWord_eq_iff] at h
  rw [← h, hw]

/-- The position rule leaves one token of each length. -/
theorem eq_alternating_of_alternatesFrom {P : TokenParams} {t : List Char}
    (h : alternatesFrom P 0 t = true) : t = alternating P t.length := by
  rw [alternatesFrom_iff] at h
  refine List.ext_getElem (by simp) fun k hk _ => ?_
  simpa [alternating] using h k t[k] (List.getElem?_eq_getElem hk)

/-- A token that decodes to `i` has the length index plus 3 and so is the token of `i`. -/
theorem eq_tokenOf_of_decodeToken {P : TokenParams} {t : List Char} {i : Instr}
    (h : decodeToken P t = .ok i) : t = tokenOf P i := by
  obtain ⟨halt, hlen, hindex⟩ := (decodeToken_eq_ok_iff P t i).mp h
  have hlength : t.length = (encode i).toNat + minTokenLen := by
    rw [← eq_toNat_encode_of_opcodeOfIndex hindex, minTokenLen, Nat.sub_add_cancel hlen]
  rw [tokenOf, ← hlength]
  exact eq_alternating_of_alternatesFrom halt

/-! ### UTF-8 -/

/-- Where no continuation byte is awaited, a byte below 128 is a character of its own. -/
theorem utf8From_cons_of_lt {b : Byte} (hb : b.toNat < 128) (rest : List Byte) :
    utf8From 0 0 0 (b :: rest) = (utf8From 0 0 0 rest).map (Char.ofNat b.toNat :: ·) :=
  if_pos hb

/-! ### The statements -/

/-- Settles O3: the position rule and the length leave one token per opcode, and the 3-bit table is a
bijection. -/
theorem decodeEncodeAgree : Obligations.DecodeEncodeAgree := by
  refine ⟨fun P t i => ⟨eq_tokenOf_of_decodeToken, ?_⟩, decodeWord_eq_iff⟩
  rintro rfl
  exact ((Laws.Encoding.of_any i).2.2 P).2

/-- Settles O6, byte by byte. -/
theorem asciiSourceReadsAsItself : Obligations.AsciiSourceReadsAsItself := by
  intro bytes hbytes
  induction bytes with
  | nil => rfl
  | cons b rest ih =>
    obtain ⟨hb, hrest⟩ := List.forall_mem_cons.mp hbytes
    have hread : utf8From 0 0 0 rest = some (rest.map fun b => Char.ofNat b.toNat) := ih hrest
    rw [utf8Decode, utf8From_cons_of_lt hb, hread, Option.map_some, List.map_cons]

/-- Settles O1: eight rows of the table, read one by one. -/
theorem tableWordsDecode : Obligations.TableWordsDecode :=
  ⟨rfl, rfl, rfl, rfl, rfl, rfl, rfl, rfl⟩

end Sys2Proof

/-! PROOFS. What one instruction leaves unchanged: the parameters of a run (10_state.md section 11), the fault
latch (60_exceptions.md section 1), the channels (43_io.md) and the narration (10_state.md R17). -/

namespace Sys2Proof.Machine

/-! ### The next states of an instruction -/

/-- Every next state an instruction can have: one case per instruction, three per jump and two for Input. The
facts about a next state below are read off these cases. -/
inductive ExecNext (s : State) : Instr → State → Prop
  | moveRight : ExecNext s .moveRight ((s.setDp (rightOf s.tapeLen s.dp)).advance.narrate .moveRight)
  | moveLeft : ExecNext s .moveLeft ((s.setDp (leftOf s.tapeLen s.dp)).advance.narrate .moveLeft)
  | increment : ExecNext s .increment ((s.setCell (s.cell + 1#8)).advance.narrate .increment)
  | decrement : ExecNext s .decrement ((s.setCell (s.cell + 255#8)).advance.narrate .decrement)
  | forwardNotTaken (hcell : s.cell ≠ 0#8) : ExecNext s .jumpForward s.advance
  | forwardTaken {j : Nat} (hcell : s.cell = 0#8) (hscan : scanForward s.program s.pc = some j) :
      ExecNext s .jumpForward (s.setPc j).advance
  | forwardUnmatched (hcell : s.cell = 0#8) (hscan : scanForward s.program s.pc = none) :
      ExecNext s .jumpForward (s.latchUnmatched .faultUnmatchedForward)
  | backNotTaken (hcell : s.cell = 0#8) : ExecNext s .jumpBack s.advance
  | backTaken {j : Nat} (hcell : s.cell ≠ 0#8) (hscan : scanBackward s.program s.pc = some j) :
      ExecNext s .jumpBack (s.setPc j).advance
  | backUnmatched (hcell : s.cell ≠ 0#8) (hscan : scanBackward s.program s.pc = none) :
      ExecNext s .jumpBack (s.latchUnmatched .faultUnmatchedBack)
  | output : ExecNext s .output (s.emit (charOf s.cell)).advance
  | inputExhausted (hinput : s.nextInput = none) : ExecNext s .input (s.latch .faultInputExhausted)
  | inputByte {b : Byte} (hinput : s.nextInput = some b) : ExecNext s .input (s.consume.setCell b).advance

theorem exec_next {i : Instr} {s t : State} (h : exec i s = .next t) : ExecNext s i t := by
  cases i with
  | moveRight => obtain ⟨-, rfl⟩ := execMoveRight_next h; exact .moveRight
  | moveLeft => obtain ⟨-, rfl⟩ := execMoveLeft_next h; exact .moveLeft
  | increment => obtain ⟨-, rfl⟩ := execIncrement_next h; exact .increment
  | decrement => obtain ⟨-, rfl⟩ := execDecrement_next h; exact .decrement
  | jumpForward =>
    obtain ⟨-, ⟨hcell, rfl⟩ | ⟨j, hcell, hscan, rfl⟩ | ⟨hcell, hscan, rfl⟩⟩ := execJumpForward_next h
    · exact .forwardNotTaken hcell
    · exact .forwardTaken hcell hscan
    · exact .forwardUnmatched hcell hscan
  | jumpBack =>
    obtain ⟨-, ⟨hcell, rfl⟩ | ⟨j, hcell, hscan, rfl⟩ | ⟨hcell, hscan, rfl⟩⟩ := execJumpBack_next h
    · exact .backNotTaken hcell
    · exact .backTaken hcell hscan
    · exact .backUnmatched hcell hscan
  | output => obtain ⟨-, rfl⟩ := execOutput_next h; exact .output
  | input =>
    obtain ⟨-, ⟨hinput, rfl⟩ | ⟨b, hinput, rfl⟩⟩ := execInput_next h
    · exact .inputExhausted hinput
    · exact .inputByte hinput

/-! ### The parameters of a run -/

/-- `t` is a state of the same run as `s`: the program, the tape length, the input and the debug flag agree. -/
structure SameParameters (s t : State) : Prop where
  imem : t.imem = s.imem
  tapeLen : t.tapeLen = s.tapeLen
  input : t.input = s.input
  debugFlag : t.debug = s.debug

theorem SameParameters.refl (s : State) : SameParameters s s := ⟨rfl, rfl, rfl, rfl⟩

theorem SameParameters.trans {s t u : State} (hst : SameParameters s t) (htu : SameParameters t u) :
    SameParameters s u :=
  ⟨htu.imem.trans hst.imem, htu.tapeLen.trans hst.tapeLen, htu.input.trans hst.input,
    htu.debugFlag.trans hst.debugFlag⟩

theorem exec_sameParameters {i : Instr} {s t : State} (h : exec i s = .next t) : SameParameters s t := by
  cases exec_next h <;> exact ⟨rfl, rfl, rfl, rfl⟩

theorem step_sameParameters {s t : State} (h : step s = .next t) : SameParameters s t := by
  obtain ⟨-, ⟨-, rfl⟩ | ⟨-, -, rfl⟩ | ⟨-, i, -, hexec⟩⟩ := step_next h
  · exact .refl t
  · exact .refl t
  · exact exec_sameParameters hexec

/-! ### The channels -/

/-- What Output emits is ASCII or the replacement character (43_io.md R110). -/
theorem charOf_cases (v : Byte) : (charOf v).toNat ≤ 127 ∨ charOf v = replacementChar := by
  unfold charOf
  split
  case isTrue hv => exact .inl (by rw [BitVec.toNat_setWidth]; omega)
  case isFalse => exact .inr rfl

theorem exec_output {i : Instr} {s t : State} (h : exec i s = .next t) :
    (i ≠ .output ∧ t.output = s.output) ∨ (i = .output ∧ t.output = s.output ++ [charOf s.cell]) := by
  cases exec_next h <;> simp

theorem exec_inpos {i : Instr} {s t : State} (h : exec i s = .next t) :
    (i ≠ .input ∧ t.inpos = s.inpos) ∨
    (i = .input ∧ s.inpos < s.input.length ∧ t.inpos = s.inpos + 1) ∨
    (i = .input ∧ t.inpos = s.inpos ∧ t.status = .faultInputExhausted) := by
  cases exec_next h with
  | inputExhausted hinput => simp
  | inputByte hinput =>
    obtain ⟨hlt, -⟩ := List.getElem?_eq_some_iff.mp hinput
    simp [hlt]
  | _ => simp

theorem step_channels {s t : State} (h : step s = .next t) :
    s.output <+: t.output ∧ s.inpos ≤ t.inpos ∧ t.inpos ≤ s.inpos + 1 := by
  obtain ⟨-, ⟨-, rfl⟩ | ⟨-, -, rfl⟩ | ⟨-, i, -, hexec⟩⟩ := step_next h
  · simp
  · simp
  · refine ⟨?_, ?_⟩
    · obtain ⟨-, ho⟩ | ⟨-, ho⟩ := exec_output hexec <;> simp [ho]
    · obtain ⟨-, hp⟩ | ⟨-, -, hp⟩ | ⟨-, hp, -⟩ := exec_inpos hexec <;> omega

/-! ### The narration -/

theorem exec_narration {i : Instr} {s t : State} (h : exec i s = .next t) :
    t.narration = if s.debug = true ∧ narrated i = true then s.narration ++ [i] else s.narration := by
  cases exec_next h <;> simp [narrated, cond_eq_ite]

theorem narrated_iff (i : Instr) :
    narrated i = true ↔ i = .moveRight ∨ i = .moveLeft ∨ i = .increment ∨ i = .decrement := by
  cases i <;> simp [narrated]

theorem exec_status_of_narrated {i : Instr} {s t : State} (h : exec i s = .next t)
    (hi : narrated i = true) : t.status = s.status := by
  cases exec_next h with
  | moveRight | moveLeft | increment | decrement => rfl
  | _ => cases hi

/-- A failing step changes no state at all or ran an instruction that failed, and no narrated one fails. -/
theorem stepTransaction_narration_of_not_ok {s t : State} {r : StepResult}
    (h : stepTransaction s = .next (t, r)) (hr : r ≠ .ok) : t.narration = s.narration := by
  obtain ⟨hstep, rfl⟩ := stepTransaction_next h
  obtain ⟨-, ⟨-, rfl⟩ | ⟨-, -, rfl⟩ | ⟨hrun, i, hfetch, hexec⟩⟩ := step_next hstep
  · rfl
  · rfl
  · have hnot : ¬ narrated i = true := fun hi =>
      hr ((StepResult.between_eq_ok_iff s t).mpr
        ⟨(exec_status_of_narrated hexec hi).trans hrun, State.isDone_of_fetch hfetch⟩)
    rw [exec_narration hexec, if_neg fun hboth => hnot hboth.2]

/-! ### The statements -/

/-- Settles O37, from the parameters across one instruction. -/
theorem runParametersNeverChange : Obligations.RunParametersNeverChange := by
  refine ⟨fun i s t h => ?_, fun s t h => ?_⟩
  · obtain ⟨himem, hlen, hinput, hdebug⟩ := exec_sameParameters h
    exact ⟨himem, hlen, hinput, hdebug⟩
  · obtain ⟨himem, hlen, hinput, hdebug⟩ := step_sameParameters h
    exact ⟨himem, hlen, hinput, hdebug⟩

/-- Settles O38: of the next states of an instruction three latch a fault. -/
theorem latchWrittenByFaultsOnly : Obligations.LatchWrittenByFaultsOnly := by
  intro i s t h
  cases exec_next h with
  | forwardUnmatched hcell hscan => exact .inr (.inl ⟨rfl, hcell, hscan, rfl⟩)
  | backUnmatched hcell hscan => exact .inr (.inr (.inl ⟨rfl, hcell, hscan, rfl⟩))
  | inputExhausted hinput =>
    exact .inr (.inr (.inr ⟨rfl, s.nextInput_eq_none_iff.mp hinput, rfl, rfl⟩))
  | _ => exact .inl ⟨rfl, rfl⟩

/-- Settles O23, from the two channels across one instruction. -/
theorem channelFrame : Obligations.ChannelFrame := by
  refine ⟨fun i s t h => ⟨fun hi => ?_, fun hi => ?_, fun hi => ?_, fun hi => ?_⟩, fun _ _ => step_channels⟩
  · exact ((exec_output h).resolve_right fun hout => hi hout.1).2
  · obtain ⟨-, hout⟩ := (exec_output h).resolve_left fun hout => hout.1 hi
    exact ⟨_, hout, (charOf_cases s.cell).imp_right (congrArg BitVec.toNat)⟩
  · exact ((exec_inpos h).resolve_right (by simp [hi])).2
  · obtain ⟨hne, -⟩ | ⟨-, -, hpos⟩ | ⟨-, hpos, hstatus⟩ := exec_inpos h
    · exact absurd hi hne
    · exact .inl hpos
    · exact .inr ⟨hpos, hstatus⟩

/-- Settles O42, from the narration across one instruction. -/
theorem narrationOfFourOpcodes : Obligations.NarrationOfFourOpcodes := by
  refine ⟨fun i s t h => ?_, fun _ _ _ => stepTransaction_narration_of_not_ok⟩
  rw [exec_narration h]
  simp only [narrated_iff]

end Sys2Proof.Machine

/-! PROOFS. The invariant of 10_state.md section 7: every step keeps it, a state that meets it can step, and a
booted machine stays in it (70_reset_and_hazards.md). -/

namespace Sys2Proof.Machine

/-! ### The clauses of the invariant across one instruction -/

theorem exec_tape_wf {i : Instr} {s t : State} (h : exec i s = .next t) (hwf : Memory.wf s.tape = true) :
    Memory.wf t.tape = true := by
  obtain ⟨-, -, ⟨-, -, ht⟩ | ⟨-, -, ht⟩ | ⟨-, -, v, ht⟩ | ⟨-, ht⟩⟩ := exec_pointer_tape_cases h <;> rw [ht]
  · exact hwf
  · exact hwf
  · exact Memory.write_wf hwf s.dp v
  · exact hwf

theorem exec_tape_below {i : Instr} {s t : State} (h : exec i s = .next t)
    (hbelow : ∀ c ∈ s.tape, c.1 < s.tapeLen) : ∀ c ∈ t.tape, c.1 < t.tapeLen := by
  obtain ⟨hd, hlen, ⟨-, -, ht⟩ | ⟨-, -, ht⟩ | ⟨-, -, v, ht⟩ | ⟨-, ht⟩⟩ := exec_pointer_tape_cases h <;>
    rw [ht, hlen]
  · exact hbelow
  · exact hbelow
  · exact Memory.write_below hbelow hd
  · exact hbelow

theorem State.pc_lt_of_fetch {s : State} {i : Instr} (h : s.fetch = some i) : s.pc < s.imem.length := by
  rw [← Nat.not_le, ← s.fetch_eq_none_iff, h]
  exact Option.some_ne_none i

theorem lt_imem_length_of_program {s : State} {j : Nat} {i : Instr} (h : s.program[j]? = some i) :
    j < s.imem.length := by
  obtain ⟨hlt, -⟩ := List.getElem?_eq_some_iff.mp h
  rwa [s.program_length] at hlt

/-- A fetched instruction leaves the counter within the program or latches an unmatched jump. -/
theorem exec_pc_le {i : Instr} {s t : State} (h : exec i s = .next t) (hpc : s.pc < s.imem.length)
    (ht : t.status = .running ∨ t.status = .faultInputExhausted) :
    t.pc ≤ s.imem.length := by
  cases exec_counter h with
  | fallsThrough _ _ hpc' _ => omega
  | landsForward _ hscan hpc' _ =>
    have hj := lt_imem_length_of_program (scanForward_some hscan).2
    omega
  | landsBack _ hscan hpc' _ =>
    have hj := (scanBackward_some hscan).1
    omega
  | unmatchedForward _ _ hstatus => simp [hstatus] at ht
  | unmatchedBack _ _ hstatus => simp [hstatus] at ht
  | inputExhausted _ hpc' _ => omega

theorem exec_inpos_le {i : Instr} {s t : State} (h : exec i s = .next t) (hpos : s.inpos ≤ s.input.length) :
    t.inpos ≤ s.input.length := by
  obtain ⟨-, hp⟩ | ⟨-, hlt, hp⟩ | ⟨-, hp, -⟩ := exec_inpos h <;> omega

theorem exec_output_ascii {i : Instr} {s t : State} (h : exec i s = .next t)
    (hout : ∀ c ∈ s.output, c.toNat ≤ 127 ∨ c = replacementChar) :
    ∀ c ∈ t.output, c.toNat ≤ 127 ∨ c = replacementChar := by
  obtain ⟨-, ho⟩ | ⟨-, ho⟩ := exec_output h <;> rw [ho]
  · exact hout
  · exact List.forall_mem_append.mpr ⟨hout, List.forall_mem_singleton.mpr (charOf_cases s.cell)⟩

theorem exec_narration_narrated {i : Instr} {s t : State} (h : exec i s = .next t)
    (hnarr : ∀ j ∈ s.narration, narrated j = true) : ∀ j ∈ t.narration, narrated j = true := by
  rw [exec_narration h]
  split
  case isTrue hi => exact List.forall_mem_append.mpr ⟨hnarr, List.forall_mem_singleton.mpr hi.2⟩
  case isFalse => exact hnarr

/-- `InputExhausted` is latched by an Input only, which stays where it was, with no byte left. -/
theorem exec_exhausted {i : Instr} {s t : State} (h : exec i s = .next t) (hrun : s.status = .running)
    (ht : t.status = .faultInputExhausted) :
    i = .input ∧ s.input.length ≤ s.inpos ∧ t = s.latch .faultInputExhausted := by
  cases exec_next h with
  | inputExhausted hinput => exact ⟨rfl, s.nextInput_eq_none_iff.mp hinput, rfl⟩
  | _ => simp [hrun] at ht

/-- Every fetched instruction keeps the invariant, clause by clause. -/
theorem exec_keeps_inv {i : Instr} {s t : State} (hs : s.Inv) (hrun : s.status = .running)
    (hfetch : s.fetch = some i) (h : exec i s = .next t) : t.Inv := by
  obtain ⟨hone, hd, hwf, hbelow, -, hpos, hout, hnarr, -⟩ := hs
  obtain ⟨himem, hlen, hinput, -⟩ := exec_sameParameters h
  refine ⟨hlen ▸ hone, exec_dp_lt_tapeLen h, exec_tape_wf h hwf, exec_tape_below h hbelow, fun ht => ?_,
    hinput ▸ exec_inpos_le h hpos, exec_output_ascii h hout, exec_narration_narrated h hnarr, fun ht => ?_⟩
  · rw [State.instrCount, himem]
    exact exec_pc_le h (State.pc_lt_of_fetch hfetch) ht
  · obtain ⟨rfl, hend, rfl⟩ := exec_exhausted h hrun ht
    exact ⟨hfetch, hpos.antisymm hend⟩

theorem step_keeps_inv {s t : State} (hs : s.Inv) (h : step s = .next t) : t.Inv := by
  obtain ⟨-, ⟨-, rfl⟩ | ⟨-, -, rfl⟩ | ⟨hrun, i, hfetch, hexec⟩⟩ := step_next h
  · exact hs
  · exact hs
  · exact exec_keeps_inv hs hrun hfetch hexec

/-! ### Steps that complete -/

theorem State.Inv.dp_lt {s : State} (hs : s.Inv) : s.dp < s.tapeLen := by
  obtain ⟨-, hd, -⟩ := hs
  exact hd

theorem exec_exists_next (i : Instr) {s : State} (hd : s.dp < s.tapeLen) : ∃ t, exec i s = .next t := by
  have goesOn {go : Host.Outcome State Fault Refusal} (hgo : ∃ t, go = .next t) :
      ∃ t, s.onTape go = .next t := by rwa [State.onTape_of_lt hd]
  cases i with
  | input =>
    refine goesOn ?_
    cases s.nextInput with
    | none => exact ⟨_, rfl⟩
    | some b => exact ⟨_, rfl⟩
  | _ => exact goesOn ⟨_, rfl⟩

theorem step_of_not_running {s : State} (hlen : s.tapeLen ≠ 0) (hs : s.status ≠ .running) :
    step s = .next s := by
  simp [step, State.cycle, hlen, hs]

theorem step_exists_next {s : State} (hd : s.dp < s.tapeLen) : ∃ t, step s = .next t := by
  have hlen : s.tapeLen ≠ 0 := Nat.ne_zero_of_lt hd
  by_cases hrun : s.status = .running
  · cases hfetch : s.fetch with
    | none => exact ⟨s, step_of_isDone hlen (s.isDone_iff_fetch_eq_none.mpr hfetch)⟩
    | some i =>
      rw [step_of_fetch hlen hrun hfetch]
      exact exec_exists_next i hd
  · exact ⟨s, step_of_not_running hlen hrun⟩

/-! ### Runs -/

theorem run_succ_of_step {s t : State} (h : step s = .next t) (k : Nat) :
    Host.Core.run Sys2Proof.core (k + 1) s = Host.Core.run Sys2Proof.core k t := by
  have hcore : Sys2Proof.core.step s = .next t := h
  simp only [Host.Core.run, hcore]

/-- A property in which every state steps and stays is kept by runs of every length, and none of them stops. -/
theorem run_exists_next {P : State → Prop} (hstep : ∀ s, P s → ∃ t, step s = .next t ∧ P t) (k : Nat)
    {s : State} (hs : P s) : ∃ t, Host.Core.run Sys2Proof.core k s = .next t ∧ P t := by
  induction k generalizing s with
  | zero => exact ⟨s, rfl, hs⟩
  | succ k ih =>
    obtain ⟨t, hst, ht⟩ := hstep s hs
    rw [run_succ_of_step hst]
    exact ih ht

/-- A good state steps to a good state of the same run. -/
theorem step_of_inv {s : State} (hs : s.Inv) : ∃ t, step s = .next t ∧ t.Inv ∧ SameParameters s t := by
  obtain ⟨t, h⟩ := step_exists_next hs.dp_lt
  exact ⟨t, h, step_keeps_inv hs h, step_sameParameters h⟩

theorem run_of_inv {s : State} (hs : s.Inv) (k : Nat) :
    ∃ t, Host.Core.run Sys2Proof.core k s = .next t ∧ t.Inv ∧ SameParameters s t := by
  refine run_exists_next (P := fun t => t.Inv ∧ SameParameters s t) (fun t ⟨ht, hsame⟩ => ?_) k ⟨hs, .refl s⟩
  obtain ⟨u, hu, hinv, hsame'⟩ := step_of_inv ht
  exact ⟨u, hu, hinv, hsame.trans hsame'⟩

/-! ### Reset -/

theorem fresh_inv {n : Nat} (hn : 1 ≤ n) (imem : List OpWord) (b : Bool) (bytes : List Byte) :
    (((State.fresh n imem).setDebug b).supplyInput bytes).Inv :=
  ⟨hn, hn, rfl, nofun, fun _ => Nat.zero_le _, Nat.zero_le _, nofun, nofun, nofun⟩

theorem construct_of_pos {n : Nat} (hn : 1 ≤ n) (imem : List OpWord) :
    construct n imem = .next (State.fresh n imem) :=
  if_neg (Nat.one_le_iff_ne_zero.mp hn)

theorem boot_of_utf8 {source : List Byte} {text : List Char} (htext : utf8Decode source = some text)
    {n : Nat} (hn : 1 ≤ n) (P : TokenParams) (b : Bool) (bytes : List Byte) :
    boot P source n b bytes = .next (((State.fresh n (load P text)).setDebug b).supplyInput bytes) := by
  simp [boot, loadSource, htext, construct_of_pos hn]

/-! ### The statements -/

/-- Settles O34: a step that changes anything executes a fetched instruction, which keeps every clause. -/
theorem stepKeepsInvariant : Obligations.StepKeepsInvariant := fun _ _ => step_keeps_inv

/-- Settles O35: the invariant puts the data pointer on the tape, and nothing else could stop a step. -/
theorem goodStatesAlwaysStep : Obligations.GoodStatesAlwaysStep := fun _ hs => step_exists_next hs.dp_lt

/-- Settles O33, from the reset values; `State.reset` is one of the constructed states. -/
theorem constructedStatesMeetInvariant : Obligations.ConstructedStatesMeetInvariant :=
  ⟨fun _ imem b bytes hn => fresh_inv hn imem b bytes, fresh_inv (by decide) [] false []⟩

/-- Settles O36: the booted state meets the invariant, which every run from it keeps with the parameters. -/
theorem bootedRunsStayGood : Obligations.BootedRunsStayGood := by
  intro P source text n b bytes k htext hn
  obtain ⟨t, hrun, hinv, himem, hlen, hinput, hdebug⟩ := run_of_inv (fresh_inv hn (load P text) b bytes) k
  exact ⟨_, t, boot_of_utf8 htext hn P b bytes, rfl, hrun, hinv, himem, hlen, hinput, hdebug⟩

/-- Settles O32, from the reset values and the refusals of a tape of length 0. -/
theorem constructIsReset : Obligations.ConstructIsReset := by
  refine ⟨fun n imem hn => ⟨_, construct_of_pos hn imem, rfl, rfl, rfl, fun _ => rfl, rfl, rfl, rfl, rfl, rfl,
    rfl, ?_⟩, fun _ => rfl, fun s hlen => if_pos hlen⟩
  rw [State.isDone_iff]
  exact Nat.le_zero.trans List.length_eq_zero_iff

end Sys2Proof.Machine

/-! PROOFS. The result of a step and its cause (60_exceptions.md section 1), and the direction of the counter
(40_step_cycle.md section 2). -/

namespace Sys2Proof.Machine

/-! ### The cause of a latched fault -/

/-- An instruction of a running machine latches each fault in its one failing case. -/
theorem exec_status_iff {i : Instr} {s t : State} (h : exec i s = .next t) (hrun : s.status = .running) :
    (t.status = .faultUnmatchedForward ↔
      i = .jumpForward ∧ s.cell = 0#8 ∧ scanForward s.program s.pc = none) ∧
    (t.status = .faultUnmatchedBack ↔
      i = .jumpBack ∧ s.cell ≠ 0#8 ∧ scanBackward s.program s.pc = none) ∧
    (t.status = .faultInputExhausted ↔ i = .input ∧ s.nextInput = none) := by
  cases exec_next h with
  | forwardNotTaken hcell | backNotTaken hcell => simp [hrun, hcell]
  | forwardTaken _ hscan | backTaken _ hscan => simp [hrun, hscan]
  | forwardUnmatched hcell hscan | backUnmatched hcell hscan => simp [hcell, hscan]
  | inputExhausted hinput | inputByte hinput => simp [hrun, hinput]
  | _ => simp [hrun]

/-- From a running state, a step latches each fault exactly when it fetches the instruction and meets its
failing case. -/
theorem step_status_iff {s t : State} (h : step s = .next t) (hrun : s.status = .running) :
    (t.status = .faultUnmatchedForward ↔
      s.fetch = some .jumpForward ∧ s.cell = 0#8 ∧ scanForward s.program s.pc = none) ∧
    (t.status = .faultUnmatchedBack ↔
      s.fetch = some .jumpBack ∧ s.cell ≠ 0#8 ∧ scanBackward s.program s.pc = none) ∧
    (t.status = .faultInputExhausted ↔ s.fetch = some .input ∧ s.nextInput = none) := by
  obtain ⟨-, ⟨hlatched, -⟩ | ⟨-, hfetch, rfl⟩ | ⟨-, i, hfetch, hexec⟩⟩ := step_next h
  · exact absurd hrun hlatched
  · simp [hfetch, hrun]
  · simpa only [hfetch, Option.some.injEq] using exec_status_iff hexec hrun

/-- A done machine latches nothing. -/
theorem step_status_of_isDone {s t : State} (h : step s = .next t) (hdone : s.isDone = true) :
    t.status = s.status := by
  obtain ⟨-, ⟨-, rfl⟩ | ⟨-, -, rfl⟩ | ⟨-, i, hfetch, -⟩⟩ := step_next h
  · rfl
  · rfl
  · simp [State.isDone_of_fetch hfetch] at hdone

/-! ### The codes -/

/-- The result's code is read off the latched status, and, when none is latched, off `isDone` before. -/
theorem StepResult.code_between (s t : State) :
    (StepResult.between s t).code =
      match t.status with
      | .running => if s.isDone = true then 1 else 0
      | .faultUnmatchedForward => 2
      | .faultUnmatchedBack => 3
      | .faultInputExhausted => 4 := by
  unfold StepResult.between
  cases t.status with
  | running => simp only [Status.fault?]; split <;> rfl
  | faultUnmatchedForward | faultUnmatchedBack | faultInputExhausted => rfl

/-- The codes 2, 3 and 4 stand for the latched statuses 1, 2 and 3, the codes 0 and 1 for none. -/
theorem StepResult.code_between_iff (s t : State) :
    ((StepResult.between s t).code ≤ 1 ↔ t.status = .running) ∧
    ((StepResult.between s t).code = 1 ↔ t.status = .running ∧ s.isDone = true) ∧
    ((StepResult.between s t).code = 2 ↔ t.status = .faultUnmatchedForward) ∧
    ((StepResult.between s t).code = 3 ↔ t.status = .faultUnmatchedBack) ∧
    ((StepResult.between s t).code = 4 ↔ t.status = .faultInputExhausted) ∧
    (StepResult.between s t).code ≤ 4 := by
  rw [StepResult.code_between]
  cases t.status with
  | running => cases s.isDone <;> simp
  | faultUnmatchedForward | faultUnmatchedBack | faultInputExhausted => simp

theorem Status.code_eq_iff (f : Status) :
    (f.code = 0#2 ↔ f = .running) ∧ (f.code = 1#2 ↔ f = .faultUnmatchedForward) ∧
    (f.code = 2#2 ↔ f = .faultUnmatchedBack) ∧ (f.code = 3#2 ↔ f = .faultInputExhausted) := by
  cases f <;> decide

/-! ### The statements -/

/-- Settles O11: codes, latched statuses and causes name the same four cases. -/
theorem resultCodesAndCauses : Obligations.ResultCodesAndCauses := by
  intro s t r hrun h
  obtain ⟨hstep, rfl⟩ := stepTransaction_next h
  obtain ⟨hforward, hback, hinput⟩ := step_status_iff hstep hrun
  obtain ⟨hle1, h1, h2, h3, h4, hle4⟩ := StepResult.code_between_iff s t
  obtain ⟨hs0, hs1, hs2, hs3⟩ := t.status.code_eq_iff
  have hdone : t.status = .running ∧ s.isDone = true ↔ s.imem.length ≤ s.pc := by
    rw [← s.isDone_iff]
    exact and_iff_right_of_imp fun hd => (step_status_of_isDone hstep hd).trans hrun
  exact ⟨h1.trans hdone, h2.trans hforward, h3.trans hback,
    h4.trans (hinput.trans (and_congr_right fun _ => s.nextInput_eq_none_iff)), hle4,
    hle1.trans hs0.symm, h2.trans hs1.symm, h3.trans hs2.symm, h4.trans hs3.symm⟩

/-- Settles O10: a success fetched an instruction within the program, and a bracket found lies within it too,
after a JumpForward and before a JumpBack. -/
theorem counterDirection : Obligations.CounterDirection := by
  intro s t hrun h
  obtain ⟨hstep, hok⟩ := stepTransaction_next h
  obtain ⟨ht, hdone⟩ := (StepResult.between_eq_ok_iff s t).mp hok.symm
  obtain ⟨-, ⟨hlatched, -⟩ | ⟨-, hfetch, -⟩ | ⟨-, i, hfetch, hexec⟩⟩ := step_next hstep
  · exact absurd hrun hlatched
  · simp [s.isDone_iff_fetch_eq_none.mpr hfetch] at hdone
  · have hpc := exec_pc_le hexec (State.pc_lt_of_fetch hfetch) (.inl ht)
    obtain ⟨hforward, hback, helse⟩ := (exec_counter hexec).pc_of_running ht
    simp only [hfetch, Option.some.injEq]
    refine ⟨hpc, fun ⟨hi, hcell⟩ => ?_, fun hnot => ?_⟩
    · obtain ⟨j, hscan, hj⟩ := hback hi hcell
      have hbefore := (scanBackward_some hscan).1
      omega
    · by_cases hjump : i = .jumpForward ∧ s.cell = 0#8
      · obtain ⟨j, hscan, hj⟩ := hforward hjump.1 hjump.2
        have hafter := (scanForward_some hscan).1
        omega
      · have hnext := helse hjump hnot
        omega

/-- Settles O7, from the step of a running machine with the fetch written out. -/
theorem stepRunsTheDecodedInstruction : Obligations.StepRunsTheDecodedInstruction := by
  intro s w hlen hrun hentry
  exact step_of_fetch (Nat.one_le_iff_ne_zero.mp hlen) hrun (by simp [State.fetch, hentry])

end Sys2Proof.Machine

/-! PROOFS. The end of a run (70_reset_and_hazards.md section 5), the latch (60_exceptions.md section 1) and the
host's loop (40_step_cycle.md section 5). -/

namespace Sys2Proof.Machine

/-! ### A faulted state -/

theorem Status.exists_fault_of_ne_running {f : Status} (hf : f ≠ .running) : ∃ r, f.fault? = some r := by
  cases f with
  | running => exact absurd rfl hf
  | faultUnmatchedForward | faultUnmatchedBack | faultInputExhausted => exact ⟨_, rfl⟩

theorem StepResult.between_of_fault {s t : State} {r : StepResult} (h : t.status.fault? = some r) :
    StepResult.between s t = r := by
  rw [StepResult.between, h]

theorem eq_of_step_of_not_running {s t : State} (hs : s.status ≠ .running) (h : step s = .next t) : t = s := by
  obtain ⟨-, ⟨-, rfl⟩ | ⟨hrun, -, -⟩ | ⟨hrun, -⟩⟩ := step_next h
  · rfl
  · exact absurd hrun hs
  · exact absurd hrun hs

/-- A run begins with a step. -/
theorem exists_step_of_run_succ {k : Nat} {s u : State}
    (h : Host.Core.run Sys2Proof.core (k + 1) s = .next u) :
    ∃ t, step s = .next t ∧ Host.Core.run Sys2Proof.core k t = .next u := by
  cases hstep : step s with
  | next t => exact ⟨t, rfl, run_succ_of_step hstep k ▸ h⟩
  | fault r =>
    have hcore : Sys2Proof.core.step s = .fault r := hstep
    simp [Host.Core.run, hcore] at h
  | refused r =>
    have hcore : Sys2Proof.core.step s = .refused r := hstep
    simp [Host.Core.run, hcore] at h

theorem eq_of_run_of_not_running {k : Nat} {s t : State} (hs : s.status ≠ .running)
    (h : Host.Core.run Sys2Proof.core k s = .next t) : t = s := by
  induction k with
  | zero => cases h; rfl
  | succ k ih =>
    obtain ⟨u, hstep, hrun⟩ := exists_step_of_run_succ h
    rw [eq_of_step_of_not_running hs hstep] at hrun
    exact ih hrun

/-! ### The host's loop -/

/-- The loop with a step to spend stops at the program's end or at a failing step, or goes on after an `Ok`
step with one step less. -/
theorem hostLoop_succ_next {budget n : Nat} {s t : State} (h : hostLoop (budget + 1) s = .next (t, n)) :
    (s.isDone = true ∧ t = s ∧ n = 0) ∨
    (s.isDone = false ∧ step s = .next t ∧ StepResult.between s t ≠ .ok ∧ n = 0) ∨
    ∃ u m, step s = .next u ∧ hostLoop budget u = .next (t, m) ∧ n = m + 1 := by
  unfold hostLoop at h
  split at h
  · next hdone => cases h; exact .inl ⟨hdone, rfl, rfl⟩
  · next hdone =>
    split at h
    · next u htrans =>
      split at h
      · next v m hloop =>
        cases h
        exact .inr (.inr ⟨u, m, (stepTransaction_next htrans).1, hloop, rfl⟩)
      · cases h
      · cases h
    · next u r hne htrans =>
      cases h
      obtain ⟨hstep, rfl⟩ := stepTransaction_next htrans
      exact .inr (.inl ⟨Bool.not_eq_true _ ▸ hdone, hstep, hne, rfl⟩)
    · cases h
    · cases h

/-- The loop's state is the run's: where the loop stops early, every further step would change nothing. -/
theorem run_of_hostLoop {budget n : Nat} {s t : State} (hlen : s.tapeLen ≠ 0)
    (h : hostLoop budget s = .next (t, n)) :
    Host.Core.run Sys2Proof.core budget s = .next t ∧ n ≤ budget ∧
      (n < budget → t.isDone = true ∨ t.EndedBadly) := by
  induction budget generalizing s n with
  | zero => cases h; exact ⟨rfl, le_rfl, nofun⟩
  | succ budget ih =>
    obtain ⟨hdone, rfl, rfl⟩ | ⟨hnot, hstep, hfail, rfl⟩ | ⟨u, m, hstep, hloop, rfl⟩ := hostLoop_succ_next h
    · exact ⟨run_of_step_self (step_of_isDone hlen hdone) _, Nat.zero_le _, fun _ => .inl hdone⟩
    · have hlen' : t.tapeLen ≠ 0 := (step_sameParameters hstep).tapeLen ▸ hlen
      have hbad : t.EndedBadly := fun ht => hfail ((StepResult.between_eq_ok_iff s t).mpr ⟨ht, hnot⟩)
      rw [run_succ_of_step hstep]
      exact ⟨run_of_step_self (step_of_not_running hlen' hbad) _, Nat.zero_le _, fun _ => .inr hbad⟩
    · have hlen' : u.tapeLen ≠ 0 := (step_sameParameters hstep).tapeLen ▸ hlen
      obtain ⟨hrun, hle, hend⟩ := ih hlen' hloop
      rw [run_succ_of_step hstep]
      exact ⟨hrun, Nat.succ_le_succ hle, fun hlt => hend (Nat.lt_of_succ_lt_succ hlt)⟩

/-! ### The statements -/

/-- Settles O39: a latched state steps to itself, and its result is the fault it records. -/
theorem faultIsLatched : Obligations.FaultIsLatched := by
  intro s hlen hs
  have hstep : step s = .next s := step_of_not_running (Nat.one_le_iff_ne_zero.mp hlen) hs
  obtain ⟨r, hr⟩ := Status.exists_fault_of_ne_running hs
  have htrans := stepTransaction_of_step hstep
  rw [StepResult.between_of_fault hr] at htrans
  exact ⟨⟨r, hr, htrans⟩, run_of_step_self hstep⟩

/-- Settles O40: a final state and a faulted one each stay as they are, and the three ends are told apart by
the latch and by the counter. -/
theorem endOfRun : Obligations.EndOfRun := by
  refine ⟨fun s k hlen ⟨_, hpc⟩ => ?_, fun s t k hbad hrun ⟨ht, _⟩ => ?_, fun s => ?_⟩
  · have hdone : s.isDone = true := s.isDone_iff.mpr hpc
    exact ⟨hdone, run_of_step_self (step_of_isDone (Nat.one_le_iff_ne_zero.mp hlen) hdone) k⟩
  · rw [eq_of_run_of_not_running hbad hrun] at ht
    exact hbad ht
  · by_cases hrun : s.status = .running
    · by_cases hpc : s.instrCount ≤ s.pc
      · exact .inl ⟨⟨hrun, hpc⟩, fun hbad => hbad hrun, fun hstill => hpc.not_gt hstill.2⟩
      · exact .inr (.inr ⟨fun hfinal => hpc hfinal.2, fun hbad => hbad hrun, hrun, Nat.lt_of_not_le hpc⟩)
    · exact .inr (.inl ⟨fun hfinal => hrun hfinal.1, hrun, fun hstill => hrun hstill.1⟩)

/-- Settles O41, by induction on the budget. -/
theorem hostLoopIsARun : Obligations.HostLoopIsARun := fun _ _ _ _ hlen h =>
  run_of_hostLoop (Nat.one_le_iff_ne_zero.mp hlen) h

end Sys2Proof.Machine

/-! PROOFS. The depth-tracked scans find the nearest balanced bracket (44_jumps.md sections 1 and 2), and the
matching they define is mutual (section 3). The idea throughout: the height of an index, JumpForwards minus
JumpBacks before it, turns "balanced between" into "of equal height". -/

namespace Sys2Proof.Machine

/-! ### The height of an index -/

/-- How many JumpForwards more than JumpBacks stand before index `k`. -/
def bracketHeight (program : List Instr) (k : Nat) : Int :=
  (program.take k).count .jumpForward - (program.take k).count .jumpBack

/-- The slice between two indices is balanced exactly when their heights agree. -/
theorem balanced_iff_bracketHeight_eq (program : List Instr) {lo hi : Nat} (h : lo ≤ hi) :
    Claims.Balanced program lo hi ↔ bracketHeight program lo = bracketHeight program hi := by
  have hsplit : program.take hi = program.take lo ++ (program.take hi).drop lo := by
    conv_lhs => rw [← List.take_append_drop lo (program.take hi), List.take_take, Nat.min_eq_left h]
  rw [Claims.Balanced, bracketHeight, bracketHeight]
  conv_rhs => rw [hsplit]
  simp only [List.count_append]
  omega

/-- What an instruction adds to the height. -/
def bracketWeight : Instr → Int
  | .jumpForward => 1
  | .jumpBack => -1
  | _ => 0

theorem count_sub_count_singleton (i : Instr) :
    (List.count .jumpForward [i] : Int) - List.count .jumpBack [i] = bracketWeight i := by
  cases i <;> rfl

/-- One index further the height changes by the weight of what stands there. -/
theorem bracketHeight_succ {program : List Instr} {k : Nat} {i : Instr} (h : program[k]? = some i) :
    bracketHeight program (k + 1) = bracketHeight program k + bracketWeight i := by
  rw [← count_sub_count_singleton, bracketHeight, bracketHeight, List.take_add_one, h]
  simp only [List.count_append, Option.toList_some]
  omega

/-! ### The first index from a place on, and the last one before it -/

/-- `j` is the first index from `x` on at which `P` holds. -/
def FirstFrom (P : Nat → Prop) (x j : Nat) : Prop := x ≤ j ∧ P j ∧ ∀ k, x ≤ k → k < j → ¬ P k

/-- `j` is the last index before `x` at which `P` holds. -/
def LastBefore (P : Nat → Prop) (x j : Nat) : Prop := j < x ∧ P j ∧ ∀ k, j < k → k < x → ¬ P k

theorem firstFrom_of_hit {P : Nat → Prop} {x : Nat} (hx : P x) (j : Nat) : FirstFrom P x j ↔ x = j := by
  constructor
  · rintro ⟨hle, -, hnone⟩
    by_contra hne
    exact hnone x le_rfl (by omega) hx
  · rintro rfl
    exact ⟨le_rfl, hx, fun k hle hlt => by omega⟩

theorem firstFrom_of_miss {P : Nat → Prop} {x : Nat} (hx : ¬ P x) (j : Nat) :
    FirstFrom P x j ↔ FirstFrom P (x + 1) j := by
  constructor
  · rintro ⟨hle, hj, hnone⟩
    have hne : x ≠ j := fun h => hx (h ▸ hj)
    exact ⟨by omega, hj, fun k hk => hnone k (by omega)⟩
  · rintro ⟨hle, hj, hnone⟩
    refine ⟨by omega, hj, fun k hk hlt => ?_⟩
    obtain rfl | hne := eq_or_ne k x
    · exact hx
    · exact hnone k (by omega) hlt

theorem lastBefore_succ_of_hit {P : Nat → Prop} {x : Nat} (hx : P x) (j : Nat) :
    LastBefore P (x + 1) j ↔ x = j := by
  constructor
  · rintro ⟨hlt, -, hnone⟩
    by_contra hne
    exact hnone x (by omega) (by omega) hx
  · rintro rfl
    exact ⟨by omega, hx, fun k hlt hle => by omega⟩

theorem lastBefore_succ_of_miss {P : Nat → Prop} {x : Nat} (hx : ¬ P x) (j : Nat) :
    LastBefore P (x + 1) j ↔ LastBefore P x j := by
  constructor
  · rintro ⟨hlt, hj, hnone⟩
    have hne : x ≠ j := fun h => hx (h ▸ hj)
    exact ⟨by omega, hj, fun k hk hlt => hnone k hk (by omega)⟩
  · rintro ⟨hlt, hj, hnone⟩
    refine ⟨by omega, hj, fun k hk hle => ?_⟩
    obtain rfl | hne := eq_or_ne k x
    · exact hx
    · exact hnone k hk (by omega)

/-! ### The scan, entry by entry -/

/-- The depth after an entry that is no match. -/
def scanDepth (deeper target i : Instr) (d : Nat) : Nat :=
  if i = deeper then d + 1 else if i = target then d - 1 else d

theorem scan_cons {deeper target : Instr} (hne : target ≠ deeper) (i : Instr) (d k : Nat)
    (rest : List (Instr × Nat)) :
    scan deeper target d ((i, k) :: rest) =
      if i = target ∧ d = 0 then some k else scan deeper target (scanDepth deeper target i d) rest := by
  by_cases hdeeper : i = deeper
  · simp [scan, scanDepth, hdeeper, Ne.symm hne]
  by_cases htarget : i = target
  · cases d <;> simp [scan, scanDepth, htarget, hne]
  · simp [scan, scanDepth, hdeeper, htarget]

/-! ### The forward scan -/

/-- A JumpBack at index `k`, reached at height `c`: it closes a bracket opened to that height. -/
def ClosesAt (program : List Instr) (c : Int) (k : Nat) : Prop :=
  program[k]? = some .jumpBack ∧ bracketHeight program k = c

/-- The forward scan's depth is the height above the one it looks for, and stays so. -/
theorem bracketHeight_succ_eq_add_scanDepth {program : List Instr} {c : Int} {x d : Nat} {i : Instr}
    (hget : program[x]? = some i) (hd : bracketHeight program x = c + d)
    (hmiss : ¬(i = .jumpBack ∧ d = 0)) :
    bracketHeight program (x + 1) = c + scanDepth .jumpForward .jumpBack i d := by
  rw [bracketHeight_succ hget, hd]
  cases i <;> simp [bracketWeight, scanDepth] at hmiss ⊢ <;> omega

theorem scan_drop_eq_some_iff (program : List Instr) {c : Int} {x d : Nat} (j : Nat)
    (hd : bracketHeight program x = c + d) :
    scan .jumpForward .jumpBack d (program.zipIdx.drop x) = some j ↔
      FirstFrom (ClosesAt program c) x j := by
  induction hn : program.length - x generalizing x d with
  | zero =>
    rw [List.drop_eq_nil_of_le (by simp; omega)]
    refine ⟨nofun, fun ⟨hle, ⟨hj, _⟩, _⟩ => ?_⟩
    obtain ⟨hlt, -⟩ := List.getElem?_eq_some_iff.mp hj
    omega
  | succ n ih =>
    have hx : x < program.length := by omega
    have hget : program[x]? = some program[x] := List.getElem?_eq_getElem hx
    have hcloses : ClosesAt program c x ↔ program[x] = .jumpBack ∧ d = 0 := by
      rw [ClosesAt, hget, Option.some.injEq, hd]
      exact and_congr_right fun _ => by omega
    rw [List.drop_eq_getElem_cons (by simpa using hx), List.getElem_zipIdx, Nat.zero_add,
      scan_cons (by decide)]
    split
    case isTrue hhit => rw [firstFrom_of_hit (hcloses.mpr hhit), Option.some.injEq]
    case isFalse hmiss =>
      rw [firstFrom_of_miss (mt hcloses.mp hmiss)]
      exact ih (bracketHeight_succ_eq_add_scanDepth hget hd hmiss) (by omega)

theorem scanForward_eq_some_iff (program : List Instr) (p j : Nat) :
    scanForward program p = some j ↔
      FirstFrom (ClosesAt program (bracketHeight program (p + 1))) (p + 1) j :=
  scan_drop_eq_some_iff program j (by simp)

/-! ### The backward scan -/

/-- A JumpForward at index `k`, behind which the height is `c`: it opens a bracket to that height. -/
def OpensAt (program : List Instr) (c : Int) (k : Nat) : Prop :=
  program[k]? = some .jumpForward ∧ bracketHeight program (k + 1) = c

/-- The backward scan's depth, too, is the height above the one it looks for. -/
theorem bracketHeight_eq_add_scanDepth {program : List Instr} {c : Int} {x d : Nat} {i : Instr}
    (hget : program[x]? = some i) (hd : bracketHeight program (x + 1) = c + d)
    (hmiss : ¬(i = .jumpForward ∧ d = 0)) :
    bracketHeight program x = c + scanDepth .jumpBack .jumpForward i d := by
  rw [bracketHeight_succ hget] at hd
  cases i <;> simp [bracketWeight, scanDepth] at hmiss hd ⊢ <;> omega

theorem scan_reverse_take_eq_some_iff (program : List Instr) {c : Int} {x d : Nat} (j : Nat)
    (hd : bracketHeight program x = c + d) :
    scan .jumpBack .jumpForward d (program.zipIdx.take x).reverse = some j ↔
      LastBefore (OpensAt program c) x j := by
  induction x generalizing d with
  | zero => exact ⟨nofun, fun ⟨hlt, _⟩ => by omega⟩
  | succ x ih =>
    rw [List.take_add_one, List.getElem?_zipIdx]
    cases hget : program[x]? with
    | none =>
      -- past the program's end there is nothing to examine
      have hmiss : ¬ OpensAt program c x := by simp [OpensAt, hget]
      have hsame : bracketHeight program (x + 1) = bracketHeight program x := by
        simp [bracketHeight, List.take_add_one, hget]
      rw [lastBefore_succ_of_miss hmiss, Option.map_none, Option.toList_none, List.append_nil]
      exact ih (hsame ▸ hd)
    | some i =>
      have hopens : OpensAt program c x ↔ i = .jumpForward ∧ d = 0 := by
        rw [OpensAt, hget, Option.some.injEq, hd]
        exact and_congr_right fun _ => by omega
      rw [Option.map_some, Option.toList_some, List.reverse_append, List.reverse_singleton,
        List.singleton_append, Nat.zero_add, scan_cons (by decide)]
      split
      case isTrue hhit => rw [lastBefore_succ_of_hit (hopens.mpr hhit), Option.some.injEq]
      case isFalse hmiss =>
        rw [lastBefore_succ_of_miss (mt hopens.mp hmiss)]
        exact ih (bracketHeight_eq_add_scanDepth hget hd hmiss)

theorem scanBackward_eq_some_iff (program : List Instr) (p j : Nat) :
    scanBackward program p = some j ↔ LastBefore (OpensAt program (bracketHeight program p)) p j :=
  scan_reverse_take_eq_some_iff program j (by simp)

/-! ### Between two partners -/

theorem bracketWeight_nonneg {i : Instr} (hi : i ≠ .jumpBack) : 0 ≤ bracketWeight i := by
  cases i <;> simp [bracketWeight] at hi ⊢

theorem bracketWeight_nonpos {i : Instr} (hi : i ≠ .jumpForward) : bracketWeight i ≤ 0 := by
  cases i <;> simp [bracketWeight] at hi ⊢

/-- Up to the first JumpBack that closes to height `c` the height is at least `c`: only a JumpBack lowers it,
and one reached at `c` would have closed before. -/
theorem le_bracketHeight_of_firstFrom {program : List Instr} {c : Int} {x q k : Nat}
    (hx : bracketHeight program x = c) (hq : FirstFrom (ClosesAt program c) x q) (hxk : x ≤ k)
    (hkq : k ≤ q) : c ≤ bracketHeight program k := by
  obtain ⟨-, ⟨hpartner, -⟩, hnone⟩ := hq
  obtain ⟨hlt, -⟩ := List.getElem?_eq_some_iff.mp hpartner
  induction k, hxk using Nat.le_induction with
  | base => exact hx.ge
  | succ k hxk ih =>
    have hle : c ≤ bracketHeight program k := ih (by omega)
    have hget : program[k]? = some program[k] := List.getElem?_eq_getElem (by omega)
    rw [bracketHeight_succ hget]
    by_cases hback : program[k] = .jumpBack
    · have hne : bracketHeight program k ≠ c := fun h => hnone k hxk (by omega) ⟨hback ▸ hget, h⟩
      rw [hback, bracketWeight]
      omega
    · have hup := bracketWeight_nonneg hback
      omega

/-- Down to the last JumpForward that opens to height `c` the height is at least `c`. -/
theorem le_bracketHeight_of_lastBefore {program : List Instr} {c : Int} {x p k : Nat}
    (hx : bracketHeight program x = c) (hlen : x ≤ program.length)
    (hp : LastBefore (OpensAt program c) x p) (hpk : p < k) (hkx : k ≤ x) :
    c ≤ bracketHeight program k := by
  obtain ⟨-, -, hnone⟩ := hp
  induction hn : x - k generalizing k with
  | zero =>
    obtain rfl : k = x := by omega
    exact hx.ge
  | succ n ih =>
    have hle : c ≤ bracketHeight program (k + 1) := ih (by omega) (by omega) (by omega)
    have hget : program[k]? = some program[k] := List.getElem?_eq_getElem (by omega)
    have hsucc := bracketHeight_succ hget
    by_cases hforward : program[k] = .jumpForward
    · have hne : bracketHeight program (k + 1) ≠ c := fun h =>
        hnone k hpk (by omega) ⟨hforward ▸ hget, h⟩
      rw [hforward, bracketWeight] at hsucc
      omega
    · have hdown := bracketWeight_nonpos hforward
      omega

/-! ### The statements -/

/-- Settles O29: the forward scan stops at the first JumpBack reached at the height it started from. -/
theorem scanForwardFindsLeastBalanced : Obligations.ScanForwardFindsLeastBalanced := by
  intro program p j
  have hcloses {k : Nat} (hk : p < k) :
      ClosesAt program (bracketHeight program (p + 1)) k ↔
        program[k]? = some .jumpBack ∧ Claims.Balanced program (p + 1) k := by
    rw [balanced_iff_bracketHeight_eq program hk, ClosesAt, eq_comm (a := bracketHeight program k)]
  rw [scanForward_eq_some_iff, FirstFrom]
  refine and_congr_right fun hlt => ?_
  rw [hcloses hlt, and_assoc]
  exact and_congr_right fun _ => and_congr_right fun _ => forall₃_congr fun k hpk _ => by
    rw [hcloses hpk, not_and]

/-- Settles O30: the backward scan stops at the last JumpForward behind which the height is the one it started
from. -/
theorem scanBackwardFindsGreatestBalanced : Obligations.ScanBackwardFindsGreatestBalanced := by
  intro program p j
  have hopens {k : Nat} (hk : k < p) :
      OpensAt program (bracketHeight program p) k ↔
        program[k]? = some .jumpForward ∧ Claims.Balanced program (k + 1) p := by
    rw [balanced_iff_bracketHeight_eq program hk, OpensAt]
  rw [scanBackward_eq_some_iff, LastBefore]
  refine and_congr_right fun hlt => ?_
  rw [hopens hlt, and_assoc]
  exact and_congr_right fun _ => and_congr_right fun _ => forall₃_congr fun k _ hkp => by
    rw [hopens hkp, not_and]

/-- Settles O31: partners stand at one height with nothing lower between, so neither scan can stop short of the
other's start. -/
theorem matchingIsMutual : Obligations.MatchingIsMutual := by
  refine fun program p q => ⟨fun hp hscan => ?_, fun hq hscan => ?_⟩
  · have hfirst := (scanForward_eq_some_iff program p q).mp hscan
    have ⟨hpq, ⟨hq, hheight⟩, _⟩ := hfirst
    refine ⟨hq, (scanBackward_eq_some_iff program q p).mpr ⟨hpq, ⟨hp, hheight.symm⟩, ?_⟩⟩
    rintro k hpk hkq ⟨hk, hopen⟩
    have hle := le_bracketHeight_of_firstFrom rfl hfirst hpk hkq.le
    rw [bracketHeight_succ hk, bracketWeight] at hopen
    omega
  · have hlast := (scanBackward_eq_some_iff program q p).mp hscan
    have ⟨hpq, ⟨hp, hheight⟩, _⟩ := hlast
    refine ⟨hp, (scanForward_eq_some_iff program p q).mpr ⟨hpq, ⟨hq, hheight.symm⟩, ?_⟩⟩
    rintro k hpk hkq ⟨hk, hclose⟩
    obtain ⟨hlt, -⟩ := List.getElem?_eq_some_iff.mp hq
    have hle := le_bracketHeight_of_lastBefore rfl hlt.le hlast (k := k + 1) (by omega) hkq
    rw [bracketHeight_succ hk, bracketWeight] at hle
    omega

end Sys2Proof.Machine

/-! PROOFS. What a step does not depend on: the input beyond its next byte (40_step_cycle.md section 1), and the
debug flag with the narration (10_state.md section 8). -/

namespace Sys2Proof.Machine

/-! ### Two states compared through what each of their outcomes is mapped to -/

theorem mapNext_id (o : Host.Outcome State Fault Refusal) : Claims.mapNext id o = o := by
  cases o <;> rfl

theorem mapNext_onTape_congr {f g : State → State} {s s' : State} {go go' : Host.Outcome State Fault Refusal}
    (hdp : s'.dp = s.dp) (hlen : s'.tapeLen = s.tapeLen) (hgo : Claims.mapNext f go' = Claims.mapNext g go) :
    Claims.mapNext f (s'.onTape go') = Claims.mapNext g (s.onTape go) := by
  unfold State.onTape
  rw [hdp, hlen]
  split
  · exact hgo
  · rfl

/-- A jump writes the counter, or the counter and the latch: states that agree after each of these agree after
the jump. -/
theorem mapNext_jump_congr {f g : State → State} {s s' : State} (hadvance : f s'.advance = g s.advance)
    (hland : ∀ j, f (s'.setPc j).advance = g (s.setPc j).advance)
    (hlatch : ∀ u, f (s'.latchUnmatched u) = g (s.latchUnmatched u))
    (taken : Bool) (partner : Option Nat) (u : Status) :
    Claims.mapNext f (.next (s'.jump taken partner u)) =
      Claims.mapNext g (.next (s.jump taken partner u)) := by
  refine congrArg Host.Outcome.next ?_
  cases taken with
  | false => exact hadvance
  | true =>
    cases partner with
    | none => exact hlatch u
    | some j => exact hland j

theorem mapNext_step_congr {f g : State → State} {s s' : State} (hlen : s'.tapeLen = s.tapeLen)
    (hstatus : s'.status = s.status) (hfetch : s'.fetch = s.fetch) (hself : f s' = g s)
    (hexec : ∀ i, Claims.mapNext f (exec i s') = Claims.mapNext g (exec i s)) :
    Claims.mapNext f (step s') = Claims.mapNext g (step s) := by
  have hstay : Claims.mapNext f (.next s') = Claims.mapNext g (.next s) := congrArg Host.Outcome.next hself
  unfold step State.cycle
  rw [hlen, hstatus, hfetch]
  split
  · rfl
  · split
    · exact hstay
    · cases s.fetch with
      | none => exact hstay
      | some i => exact hexec i

/-! ### Another input with the same next byte -/

theorem mapNext_exec_supplyInput {s : State} {bytes : List Byte} (h : bytes[s.inpos]? = s.input[s.inpos]?)
    (i : Instr) :
    Claims.mapNext id (exec i (s.supplyInput bytes)) =
      Claims.mapNext (fun t => t.supplyInput bytes) (exec i s) := by
  cases i with
  | jumpForward | jumpBack =>
    refine mapNext_onTape_congr rfl rfl (mapNext_jump_congr ?_ (fun _ => ?_) (fun _ => ?_) _ _ _) <;> rfl
  | input =>
    have hnext : (s.supplyInput bytes).nextInput = s.nextInput := h
    refine mapNext_onTape_congr rfl rfl ?_
    rw [hnext]
    cases s.nextInput <;> rfl
  | _ => exact mapNext_onTape_congr rfl rfl rfl

/-! ### Another debug flag and narration -/

theorem mapNext_exec_withoutDebug (s : State) (i : Instr) :
    Claims.mapNext Claims.withoutDebug (exec i (Claims.withoutDebug s)) =
      Claims.mapNext Claims.withoutDebug (exec i s) := by
  cases i with
  | jumpForward | jumpBack =>
    refine mapNext_onTape_congr rfl rfl (mapNext_jump_congr ?_ (fun _ => ?_) (fun _ => ?_) _ _ _) <;> rfl
  | input =>
    refine mapNext_onTape_congr rfl rfl ?_
    have hnext : (Claims.withoutDebug s).nextInput = s.nextInput := rfl
    rw [hnext]
    cases s.nextInput <;> rfl
  | _ => exact mapNext_onTape_congr rfl rfl rfl

theorem mapNext_step_withoutDebug (s : State) :
    Claims.mapNext Claims.withoutDebug (step (Claims.withoutDebug s)) =
      Claims.mapNext Claims.withoutDebug (step s) :=
  mapNext_step_congr rfl rfl rfl rfl (mapNext_exec_withoutDebug s)

/-! ### The statements -/

/-- Settles O24: only Input reads the channel, and it reads one byte. -/
theorem onlyTheNextInputByteMatters : Obligations.OnlyTheNextInputByteMatters := by
  intro s bytes h
  rw [← mapNext_id (step (s.supplyInput bytes))]
  exact mapNext_step_congr rfl rfl rfl rfl (mapNext_exec_supplyInput h)

/-- Settles O43: each of the two states steps like the state without its debug flag and narration. -/
theorem debugHasNoEffect : Obligations.DebugHasNoEffect := by
  intro s s' h
  rw [← mapNext_step_withoutDebug s, h, mapNext_step_withoutDebug s']

end Sys2Proof.Machine

/-! PROOFS. The whole effect of each instruction with the data pointer on the tape (41_pointer.md to 44_jumps.md)
and its stop off the tape (log 8). -/

namespace Sys2Proof.Machine

/-! ### One instruction on the tape -/

theorem State.narrate_eq (s : State) (i : Instr) :
    s.narrate i = { s with narration := Claims.narrationWith s i } := by
  rw [State.narrate, Claims.narrationWith, cond_eq_ite]

theorem execMoveRight_of_lt {s : State} (hd : s.dp < s.tapeLen) :
    exec .moveRight s = .next ((s.setDp (rightOf s.tapeLen s.dp)).advance.narrate .moveRight) :=
  State.onTape_of_lt hd _

theorem execMoveLeft_of_lt {s : State} (hd : s.dp < s.tapeLen) :
    exec .moveLeft s = .next ((s.setDp (leftOf s.tapeLen s.dp)).advance.narrate .moveLeft) :=
  State.onTape_of_lt hd _

theorem execInput_of_some {s : State} {b : Byte} (hd : s.dp < s.tapeLen) (h : s.nextInput = some b) :
    exec .input s = .next (s.consume.setCell b).advance := by
  have hexec : exec .input s = _ := State.onTape_of_lt hd _
  rw [hexec, h]

theorem execInput_of_none {s : State} (hd : s.dp < s.tapeLen) (h : s.nextInput = none) :
    exec .input s = .next (s.latch .faultInputExhausted) := by
  have hexec : exec .input s = _ := State.onTape_of_lt hd _
  rw [hexec, h]

theorem execJumpForward_of_lt {s : State} (hd : s.dp < s.tapeLen) :
    exec .jumpForward s =
      .next (s.jump s.cellZero (scanForward s.program s.pc) .faultUnmatchedForward) :=
  State.onTape_of_lt hd _

theorem execJumpBack_of_lt {s : State} (hd : s.dp < s.tapeLen) :
    exec .jumpBack s =
      .next (s.jump s.cellNonzero (scanBackward s.program s.pc) .faultUnmatchedBack) :=
  State.onTape_of_lt hd _

theorem State.cellZero_eq_false {s : State} (h : s.cell ≠ 0#8) : s.cellZero = false :=
  beq_eq_false_iff_ne.mpr h

theorem State.cellNonzero_eq_false {s : State} (h : s.cell = 0#8) : s.cellNonzero = false :=
  bne_eq_false_iff_eq.mpr h

theorem charOf_toNat (v : Byte) : (charOf v).toNat = if v.toNat ≤ 127 then v.toNat else 0xFFFD := by
  unfold charOf
  split
  · rw [BitVec.toNat_setWidth]
    omega
  · rfl

/-- What Increment and Decrement share: the cell plus a byte modulo 256, and nothing else but the counter and
the narration. -/
theorem setCell_add_advance_narrate {s : State} (hwf : Memory.wf s.tape = true) (c : Byte) (i : Instr) :
    ∃ t, t = (s.setCell (s.cell + c)).advance.narrate i ∧
      (Memory.read t.tape s.dp).toNat = ((Memory.read s.tape s.dp).toNat + c.toNat) % 256 ∧
      (∀ a, a ≠ s.dp → Memory.read t.tape a = Memory.read s.tape a) ∧
      t = { s with tape := t.tape, pc := s.pc + 1, narration := Claims.narrationWith s i } := by
  have hadded : CellAdded c s _ := cellAdded_setCell hwf c i
  refine ⟨_, rfl, ?_, fun a ha => hadded.read_other ha, by rw [State.narrate_eq]; rfl⟩
  rw [hadded.read_dp, BitVec.toNat_add]

/-! ### The statements -/

/-- Settles O12, from the move on the tape with its narration written out. -/
theorem moveRightResult : Obligations.MoveRightResult := by
  intro s hd
  rw [execMoveRight_of_lt hd, State.narrate_eq]
  rfl

/-- Settles O13, in the same way. -/
theorem moveLeftResult : Obligations.MoveLeftResult := by
  intro s hd
  rw [execMoveLeft_of_lt hd, State.narrate_eq]
  rfl

/-- Settles O16, from the addition of 1. -/
theorem incrementResult : Obligations.IncrementResult := by
  intro s hd hwf
  obtain ⟨t, ht, hresult⟩ := setCell_add_advance_narrate hwf 1#8 .increment
  exact ⟨t, ht ▸ State.onTape_of_lt hd _, hresult⟩

/-- Settles O17, from the addition of 255. -/
theorem decrementResult : Obligations.DecrementResult := by
  intro s hd hwf
  obtain ⟨t, ht, hresult⟩ := setCell_add_advance_narrate hwf 255#8 .decrement
  exact ⟨t, ht ▸ State.onTape_of_lt hd _, hresult⟩

/-- Settles O20, with the character of the cell. -/
theorem outputResult : Obligations.OutputResult := fun s hd =>
  ⟨charOf s.cell, State.onTape_of_lt hd _, charOf_toNat s.cell⟩

/-- Settles O21, from the memory's rules for the address written and for the others. -/
theorem inputStoresNextByte : Obligations.InputStoresNextByte := fun s b hd hwf hb =>
  ⟨_, execInput_of_some hd hb, Memory.read_write_same hwf s.dp b,
    fun _ ha => Memory.read_write_other s.tape b ha, rfl⟩

/-- Settles O22: past the last byte there is no next one. -/
theorem inputExhaustedLatches : Obligations.InputExhaustedLatches := fun s hd hend =>
  execInput_of_none hd (s.nextInput_eq_none_iff.mpr hend)

/-- Settles O25: with the condition false neither jump looks at its scan. -/
theorem jumpNotTaken : Obligations.JumpNotTaken := by
  refine ⟨fun s hd hcell => ?_, fun s hd hcell => ?_⟩
  · rw [execJumpForward_of_lt hd, State.cellZero_eq_false hcell]
    rfl
  · rw [execJumpBack_of_lt hd, State.cellNonzero_eq_false hcell]
    rfl

/-- Settles O28: with the condition true and no partner both jumps latch, and the latch writes the status, the
counter and the draw count only. -/
theorem unmatchedJumpLatches : Obligations.UnmatchedJumpLatches := by
  refine ⟨fun s hd hcell hscan => ⟨s.latchUnmatched .faultUnmatchedForward, ?_, rfl⟩,
    fun s hd hcell hscan => ⟨s.latchUnmatched .faultUnmatchedBack, ?_, rfl⟩⟩
  · rw [execJumpForward_of_lt hd, s.cellZero_iff.mpr hcell, hscan]
    rfl
  · rw [execJumpBack_of_lt hd, s.cellNonzero_iff.mpr hcell, hscan]
    rfl

/-- Settles O44: all eight meanings begin with the check of the pointer. -/
theorem pointerOffTapeStops : Obligations.PointerOffTapeStops := by
  intro i s h
  cases i <;> exact State.onTape_of_le h _

end Sys2Proof.Machine

/-! PROOFS. The laws of the data pointer (41_pointer.md R92). -/

namespace Sys2Proof.Machine

/-! ### The pointer moved by a distance -/

/-- From `s` to `t` the data pointer has moved by `d` around the tape, which is as it was. -/
structure PointerMoved (d : Int) (s t : State) : Prop where
  dp : (t.dp : Int) = (s.dp + d) % s.tapeLen
  tapeLen : t.tapeLen = s.tapeLen
  tape : t.tape = s.tape

theorem emod_tapeLen_of_lt {s : State} (hd : s.dp < s.tapeLen) : (s.dp : Int) % s.tapeLen = s.dp :=
  Int.emod_eq_of_lt (by omega) (by omega)

theorem PointerMoved.refl {s : State} (hd : s.dp < s.tapeLen) : PointerMoved 0 s s :=
  ⟨by rw [add_zero, emod_tapeLen_of_lt hd], rfl, rfl⟩

theorem PointerMoved.trans {d e : Int} {s t u : State} (hst : PointerMoved d s t) (htu : PointerMoved e t u) :
    PointerMoved (d + e) s u where
  dp := by rw [htu.dp, hst.dp, hst.tapeLen, Int.emod_add_emod, add_assoc]
  tapeLen := htu.tapeLen.trans hst.tapeLen
  tape := htu.tape.trans hst.tape

/-- The pointer is back at its start exactly after whole turns. -/
theorem PointerMoved.dp_eq_iff {d : Int} {s t : State} (h : PointerMoved d s t) (hd : s.dp < s.tapeLen) :
    t.dp = s.dp ↔ (s.tapeLen : Int) ∣ d := by
  calc t.dp = s.dp
      ↔ ((s.dp : Int) + d) % s.tapeLen = (s.dp : Int) % s.tapeLen := by
        rw [← h.dp, emod_tapeLen_of_lt hd, Nat.cast_inj]
    _ ↔ (s.tapeLen : Int) ∣ d := by
        rw [Int.emod_eq_emod_iff_emod_sub_eq_zero, add_sub_cancel_left, Int.dvd_iff_emod_eq_zero]

/-! ### The instructions that move the pointer -/

/-- Wherever the pointer is on the tape, the instruction completes and moves it by `d`. -/
def MovesPointer (i : Instr) (d : Int) : Prop :=
  ∀ s : State, s.dp < s.tapeLen → ∃ t, exec i s = .next t ∧ PointerMoved d s t

theorem moveRight_movesPointer : MovesPointer .moveRight 1 := fun s hd =>
  ⟨_, execMoveRight_of_lt hd, by simp [rightOf], rfl, rfl⟩

theorem leftOf_eq_emod {n p : Nat} (hp : p < n) : (leftOf n p : Int) = ((p : Int) + -1) % n := by
  unfold leftOf
  split
  case isTrue hpos => rw [Int.emod_eq_of_lt (by omega) (by omega)]; omega
  case isFalse hzero =>
    obtain rfl : p = 0 := by omega
    rw [← Int.add_emod_right, Int.emod_eq_of_lt (by omega) (by omega)]
    omega

theorem moveLeft_movesPointer : MovesPointer .moveLeft (-1) := fun _ hd =>
  ⟨_, execMoveLeft_of_lt hd, leftOf_eq_emod hd, rfl, rfl⟩

/-- Two instructions that move by opposite distances undo each other. -/
theorem MovesPointer.exec_exec_restores {i j : Instr} {d e : Int} (hi : MovesPointer i d)
    (hj : MovesPointer j e) (hde : d + e = 0) {s : State} (hd : s.dp < s.tapeLen) :
    ∃ t u, exec i s = .next t ∧ exec j t = .next u ∧ u.dp = s.dp := by
  obtain ⟨t, hexec, hst⟩ := hi s hd
  obtain ⟨u, hexec', htu⟩ := hj t (exec_dp_lt_tapeLen hexec)
  exact ⟨t, u, hexec, hexec', ((hst.trans htu).dp_eq_iff hd).mpr (by simp [hde])⟩

theorem MovesPointer.repeatExec {i : Instr} {d : Int} (hi : MovesPointer i d) (k : Nat) {s : State}
    (hd : s.dp < s.tapeLen) : ∃ t, Claims.repeatExec k i s = .next t ∧ PointerMoved (k * d) s t := by
  induction k generalizing s with
  | zero => exact ⟨s, rfl, by simpa using PointerMoved.refl hd⟩
  | succ k ih =>
    obtain ⟨t, hexec, hst⟩ := hi s hd
    obtain ⟨u, hrepeat, htu⟩ := ih (exec_dp_lt_tapeLen hexec)
    have hsum : d + k * d = (k + 1 : Nat) * d := by push_cast; ring
    exact ⟨u, by simp [Claims.repeatExec, hexec, hrepeat], hsum ▸ hst.trans htu⟩

/-- A move does the same over any tape. -/
theorem exec_move_tape (s : State) (m : List Host.Cell) {i : Instr} (hi : i = .moveRight ∨ i = .moveLeft) :
    exec i { s with tape := m } = Claims.mapNext (fun t => { t with tape := m }) (exec i s) := by
  rw [← mapNext_id (exec i { s with tape := m })]
  rcases hi with rfl | rfl
  · exact mapNext_onTape_congr rfl rfl rfl
  · exact mapNext_onTape_congr rfl rfl rfl

/-! ### The statement -/

/-- Settles O14: MoveRight moves by 1 and MoveLeft by -1, and the distances moved along a run sum up modulo the
tape length. -/
theorem pointerLaws : Obligations.PointerLaws := by
  refine ⟨fun s k hd => ⟨?_, ?_⟩, fun s hd => ⟨?_, ?_⟩, fun s m i => exec_move_tape s m, fun _ => rfl⟩
  · obtain ⟨t, hrepeat, hst⟩ := moveRight_movesPointer.repeatExec k hd
    refine ⟨t, hrepeat, by exact_mod_cast mul_one (k : Int) ▸ hst.dp, ?_, hst.tape⟩
    rw [hst.dp_eq_iff hd, mul_one, Int.natCast_dvd_natCast]
  · obtain ⟨t, hrepeat, hst⟩ := moveLeft_movesPointer.repeatExec k hd
    refine ⟨t, hrepeat, by rw [hst.dp, mul_neg_one, ← sub_eq_add_neg], ?_, hst.tape⟩
    rw [hst.dp_eq_iff hd, mul_neg_one, dvd_neg, Int.natCast_dvd_natCast]
  · exact moveRight_movesPointer.exec_exec_restores moveLeft_movesPointer rfl hd
  · exact moveLeft_movesPointer.exec_exec_restores moveRight_movesPointer rfl hd

end Sys2Proof.Machine
